-- ==== Sys2Proof/Word.lean ====
section
/-! DEFINITION. The fixed widths of phi_core (00_scope.md R5) and the sentinel NONE_RAW. -/

namespace Sys2Proof

/-- A 32-bit command, data, register or response word (CMD_W = DATA_W = 32, R5). -/
abbrev Word := BitVec 32

/-- A value of the millisecond clock, a timestamp or a duration (TIME_W = 32, R5). -/
abbrev Time := BitVec 32

/-- A raw code or NONE_RAW (CODE_W = 8, R5). -/
abbrev Code := BitVec 8

/-- A register address (R60: 12-bit word addresses). -/
abbrev Addr := BitVec 12

/-- A debounce channel, quadrature channel or bank number, as the CH field holds it (R81). -/
abbrev Chan := BitVec 4

/-- A reference value, tolerance or joystick sample: SAMPLE_W bits, at most 12 of them (R6, R44, R45). -/
abbrev Level := BitVec 12

/-- NONE_RAW, the raw code "no input active" (R5). -/
def noneRaw : Code := 0xFF

end Sys2Proof
end

