-- ==== Sys2Proof/Config.lean ====
section
/-! DEFINITION. What an instance of phi_core fixes: the instance parameters (R6), the construction values (R7) and
the host's two symbol tables (R8). They are DATA (a `Params`), held in `State.params` and written by no step, so
that a statement about every state is a statement about every instance (log 1). The spec leaves no result open, so
there is no free value here. -/

namespace Sys2Proof

/-- TOL_CMP (R6, R181): whether "within tolerance" includes the bound. -/
inductive TolCmp where
  | le   -- `diff <= tol`, the default
  | lt   -- `diff < tol`
  deriving DecidableEq, Repr

/-- The arguments of the model that 00_scope.md R6, R7 and R8 name. Construction values are whole register words;
`Params.wf` (WellFormed.lean) says which of them describe an instance. -/
structure Params where
  nCodes : Nat                    -- N_CODES
  nDb : Nat                       -- N_DB
  nQd : Nat                       -- N_QD
  nBank : Nat                     -- N_BANK
  sampleW : Nat                   -- SAMPLE_W
  tolCmp : TolCmp                 -- TOL_CMP
  rstHoldTime : Word
  rstDebounceTime : Word
  rstRepeatTime : Word
  rstDashThreshold : Word
  rstDashTime : Word
  rstJoyCtrl : Word
  rstQdCtrl : List Word           -- RST_QD_CTRL[c], c < N_QD
  rstQdDetents : List Word        -- RST_QD_DETENTS[c], c < N_QD
  rstBankCount : List Word        -- RST_BANK_COUNT[b], b < N_BANK
  rstBankTol : List Word          -- RST_BANK_TOL[b], b < N_BANK
  rstBankRef : List (List Word)   -- RST_BANK_REF[b][i], b < N_BANK, i < 16
  keymap : List Nat               -- keymap(c), c < N_CODES (R8, R246)
  rotmapUp : Nat                  -- rotmap(Up)
  rotmapDown : Nat                -- rotmap(Down)
  deriving DecidableEq, Repr

/-- The one instance the spec writes out: the test instance of 95_test_vectors.md section 0.
DESIGN CHOICE (log 2): the spec leaves these parameters OPEN and says they are no defaults of the hardware.
DESIGN CHOICE (log 3): the two symbol tables, of which the spec asks only that no entry be 0 (R247). -/
def Params.testInstance : Params where
  nCodes := 16
  nDb := 2
  nQd := 2
  nBank := 2
  sampleW := 10
  tolCmp := .le
  rstHoldTime := 1000
  rstDebounceTime := 25
  rstRepeatTime := 200
  rstDashThreshold := 0
  rstDashTime := 0
  rstJoyCtrl := 0
  rstQdCtrl := [0, 0]
  rstQdDetents := [24, 24]
  rstBankCount := [0, 0]
  rstBankTol := [0, 0]
  rstBankRef := [List.replicate 16 0, List.replicate 16 0]
  keymap := [1, 2, 3, 4, 5, 6, 7, 8, 9, 10, 11, 12, 13, 14, 15, 16]
  rotmapUp := 17
  rotmapDown := 18

end Sys2Proof
end

