-- ==== Sys2Proof/Machine/Checks.lean ====
section
/-! DEFINITION. The write-validity checks of 43_config_access.md R206, one per kind of register. CFG_WRITE makes
them on DATA, and they bound the construction values of R7. -/

namespace Sys2Proof.Machine

/-- JOY_CTRL: DATA[31:16] = 0, DATA[3:0] < N_BANK, DATA[7:4] < N_BANK. -/
def validJoyCtrl (p : Params) (v : Word) : Bool :=
  v.extractLsb' 16 16 == 0
    && decide ((v.extractLsb' 0 4).toNat < p.nBank)
    && decide ((v.extractLsb' 4 4).toNat < p.nBank)

/-- QD_CTRL: DATA[31:8] = 0, DATA[3:2] = 0, DATA[7:4] < N_BANK. -/
def validQdCtrl (p : Params) (v : Word) : Bool :=
  v.extractLsb' 8 24 == 0
    && v.extractLsb' 2 2 == 0
    && decide ((v.extractLsb' 4 4).toNat < p.nBank)

/-- QD_DETENTS: DATA[31:16] = 0 and DATA[15:0] >= 1. -/
def validQdDetents (v : Word) : Bool :=
  v.extractLsb' 16 16 == 0 && decide (1 ≤ (v.extractLsb' 0 16).toNat)

/-- BANK_COUNT: DATA <= 16. -/
def validBankCount (v : Word) : Bool := decide (v.toNat ≤ 16)

/-- BANK_TOL and BANK_REF: DATA < 2^SAMPLE_W. -/
def validLevel (p : Params) (v : Word) : Bool := decide (v.toNat < 2 ^ p.sampleW)

end Sys2Proof.Machine
end

