-- ==== Sys2Proof/Syntax.lean ====
section
/-! DEFINITION. The commands: one constructor per row of spec/opcode_table.json (R82), with the operands of R90. -/

namespace Sys2Proof

/-- A command with its operands, each an unsigned field taken as it stands (R90). -/
inductive Instr where
  /-- NOP (R200). -/
  | nop
  /-- DB_STEP ch, raw (R120). -/
  | dbStep (ch : Chan) (raw : Code)
  /-- QD_STEP ch, in (R150). -/
  | qdStep (ch : Chan) (inp : BitVec 16)
  /-- QD_ANGLE ch, in (R155). -/
  | qdAngle (ch : Chan) (inp : BitVec 16)
  /-- CLASSIFY b, sample (R182); CH names the bank. -/
  | classify (b : Chan) (sample : BitVec 16)
  /-- JOY_CLASSIFY x, y (R183). -/
  | joyClassify (x y : BitVec 12)
  /-- CFG_READ addr (R201). -/
  | cfgRead (addr : Addr)
  /-- CFG_WRITE addr, data (R202); `data` is the DATA word, which no other command reads (R89). -/
  | cfgWrite (addr : Addr) (data : Word)
  deriving DecidableEq, Repr

end Sys2Proof
end

