-- ==== Sys2Proof/WellFormed.lean ====
section
/-! DEFINITION. Well-formedness. An instruction's operands are bit vectors of the widths of R83 to R88, so no term
of `Instr` is ill-formed (log 20). A configuration can be: R7, R206 and R247 say which `Params` describe an
instance; one that fails a check is refused (R263 item 1). -/

namespace Sys2Proof

/-- Every term of `Instr` has an encoding: the widths of its fields are those of the formats. -/
def Instr.wf : Instr → Bool
  | .nop => true
  | .dbStep _ _ => true
  | .qdStep _ _ => true
  | .qdAngle _ _ => true
  | .classify _ _ => true
  | .joyClassify _ _ => true
  | .cfgRead _ => true
  | .cfgWrite _ _ => true

/-- The instance parameters are in the ranges of R6. -/
def Params.rangesOk (p : Params) : Bool :=
  decide (1 ≤ p.nCodes ∧ p.nCodes ≤ 255)
    && decide (1 ≤ p.nDb ∧ p.nDb ≤ 16)
    && decide (p.nQd ≤ 16)
    && decide (1 ≤ p.nBank ∧ p.nBank ≤ 16)
    && decide (1 ≤ p.sampleW ∧ p.sampleW ≤ 12)

/-- Every construction value passes its register's check, and there is one for each register (R7, R206). -/
def Params.constructionOk (p : Params) : Bool :=
  Machine.validJoyCtrl p p.rstJoyCtrl
    && decide (p.rstQdCtrl.length = p.nQd) && p.rstQdCtrl.all (Machine.validQdCtrl p)
    && decide (p.rstQdDetents.length = p.nQd) && p.rstQdDetents.all Machine.validQdDetents
    && decide (p.rstBankCount.length = p.nBank) && p.rstBankCount.all Machine.validBankCount
    && decide (p.rstBankTol.length = p.nBank) && p.rstBankTol.all (Machine.validLevel p)
    && decide (p.rstBankRef.length = p.nBank)
    && p.rstBankRef.all (fun refs => decide (refs.length = 16) && refs.all (Machine.validLevel p))

/-- The mapper's constraints (R247): one symbol per raw code, and no symbol is NO_KEY = 0. -/
def Params.mapperOk (p : Params) : Bool :=
  decide (p.keymap.length = p.nCodes)
    && p.keymap.all (fun k => decide (k ≠ 0))
    && decide (p.rotmapUp ≠ 0) && decide (p.rotmapDown ≠ 0)

/-- The configuration describes an instance (R7, R247, R248, R263 item 1). -/
def Params.wf (p : Params) : Bool := p.rangesOk && p.constructionOk && p.mapperOk

end Sys2Proof
end

