-- ==== Sys2Proof/Decode.lean ====
section
/-! DEFINITION. Decoding a command (30_encoding.md R80 to R94) and, after it, encoding one (R97). -/

namespace Sys2Proof

/-- Why a command word is no command (R94). The two are errors 1 and 2 of R221. -/
inductive DecodeError where
  | illegalOpcode   -- OP is 0x8 to 0xF (R92)
  | reservedBits    -- a reserved bit is set (R91)
  deriving DecidableEq, Repr

/-- One row of the opcode map (R82): the bits that are fixed and the values they have. -/
structure Row where
  mnemonic : String
  mask : Word
  value : Word
  deriving DecidableEq, Repr

def rowNop : Row := ⟨"NOP", 0xFFFFFFFF, 0x00000000⟩
def rowDbStep : Row := ⟨"DB_STEP", 0xF0FFFF00, 0x10000000⟩
def rowQdStep : Row := ⟨"QD_STEP", 0xF0FF0000, 0x20000000⟩
def rowQdAngle : Row := ⟨"QD_ANGLE", 0xF0FF0000, 0x30000000⟩
def rowClassify : Row := ⟨"CLASSIFY", 0xF0FF0000, 0x40000000⟩
def rowJoyClassify : Row := ⟨"JOY_CLASSIFY", 0xFF000000, 0x50000000⟩
def rowCfgRead : Row := ⟨"CFG_READ", 0xFFFFF000, 0x60000000⟩
def rowCfgWrite : Row := ⟨"CFG_WRITE", 0xFFFFF000, 0x70000000⟩

/-- The opcode map in the order of its opcodes. -/
def opcodeMap : List Row :=
  [rowNop, rowDbStep, rowQdStep, rowQdAngle, rowClassify, rowJoyClassify, rowCfgRead, rowCfgWrite]

/-- The row of an instruction. -/
def Instr.row : Instr → Row
  | .nop => rowNop
  | .dbStep _ _ => rowDbStep
  | .qdStep _ _ => rowQdStep
  | .qdAngle _ _ => rowQdAngle
  | .classify _ _ => rowClassify
  | .joyClassify _ _ => rowJoyClassify
  | .cfgRead _ => rowCfgRead
  | .cfgWrite _ _ => rowCfgWrite

/-- A word of a known opcode: the instruction if its fixed bits are the row's, RESERVED_BITS otherwise (R91, R94). -/
def checkRow (r : Row) (cmd : Word) (i : Instr) : Except DecodeError Instr :=
  if cmd &&& r.mask = r.value then .ok i else .error .reservedBits

/-- OP = CMD[31:28] (R81). -/
def opField (cmd : Word) : BitVec 4 := cmd.extractLsb' 28 4
/-- CH = CMD[27:24] (R81). -/
def chField (cmd : Word) : Chan := cmd.extractLsb' 24 4
/-- RAW = CMD[7:0] (R84). -/
def rawField (cmd : Word) : Code := cmd.extractLsb' 0 8
/-- IN and SAMPLE = CMD[15:0] (R85, R86). -/
def inField (cmd : Word) : BitVec 16 := cmd.extractLsb' 0 16
/-- X = CMD[23:12] (R87). -/
def xField (cmd : Word) : BitVec 12 := cmd.extractLsb' 12 12
/-- Y = CMD[11:0] (R87). -/
def yField (cmd : Word) : BitVec 12 := cmd.extractLsb' 0 12
/-- ADDR = CMD[11:0] (R88). -/
def addrField (cmd : Word) : Addr := cmd.extractLsb' 0 12

/-- The decoding of a command, in the order of R94: the opcode first, then the reserved bits. Total on every pair of
words. DATA is an operand of CFG_WRITE alone (R89). -/
def decode (cmd data : Word) : Except DecodeError Instr :=
  match (opField cmd).toNat with
  | 0 => checkRow rowNop cmd .nop
  | 1 => checkRow rowDbStep cmd (.dbStep (chField cmd) (rawField cmd))
  | 2 => checkRow rowQdStep cmd (.qdStep (chField cmd) (inField cmd))
  | 3 => checkRow rowQdAngle cmd (.qdAngle (chField cmd) (inField cmd))
  | 4 => checkRow rowClassify cmd (.classify (chField cmd) (inField cmd))
  | 5 => checkRow rowJoyClassify cmd (.joyClassify (xField cmd) (yField cmd))
  | 6 => checkRow rowCfgRead cmd (.cfgRead (addrField cmd))
  | 7 => checkRow rowCfgWrite cmd (.cfgWrite (addrField cmd) data)
  | _ => .error .illegalOpcode

/-- The host's question: the instruction of the bits w, bit 0 the least significant bit of the first word (CMD), the
second word (DATA) in bits 63..32; the bits from nbits up are 0. -/
def decodeTableWord (nbits w : Nat) : Option Instr :=
  let bits := w % 2 ^ nbits
  match decode (BitVec.ofNat 32 bits) (BitVec.ofNat 32 (bits / 2 ^ 32)) with
  | .ok i => some i
  | .error _ => none

/-- The command word of an instruction, by the formulas of R97. -/
def encodeCmd : Instr → Word
  | .nop => 0x00000000
  | .dbStep ch raw => 0x10000000 ||| ch.setWidth 32 <<< 24 ||| raw.setWidth 32
  | .qdStep ch inp => 0x20000000 ||| ch.setWidth 32 <<< 24 ||| inp.setWidth 32
  | .qdAngle ch inp => 0x30000000 ||| ch.setWidth 32 <<< 24 ||| inp.setWidth 32
  | .classify b sample => 0x40000000 ||| b.setWidth 32 <<< 24 ||| sample.setWidth 32
  | .joyClassify x y => 0x50000000 ||| x.setWidth 32 <<< 12 ||| y.setWidth 32
  | .cfgRead addr => 0x60000000 ||| addr.setWidth 32
  | .cfgWrite addr _ => 0x70000000 ||| addr.setWidth 32

/-- The data word of an instruction: CFG_WRITE's value; "where DATA is ignored it is written as 0" (R97). -/
def encodeData : Instr → Word
  | .cfgWrite _ data => data
  | .nop => 0
  | .dbStep _ _ => 0
  | .qdStep _ _ => 0
  | .qdAngle _ _ => 0
  | .classify _ _ => 0
  | .joyClassify _ _ => 0
  | .cfgRead _ => 0

/-- The two words of an instruction (R80). -/
def encode (i : Instr) : Word × Word := (encodeCmd i, encodeData i)

/-- The assembler's line for an instruction (R97), numbers in decimal, registers by their addresses. -/
def asm : Instr → String
  | .nop => "NOP"
  | .dbStep ch raw => "DB_STEP " ++ toString ch.toNat ++ ", " ++ (if raw = noneRaw then "NONE" else toString raw.toNat)
  | .qdStep ch inp => "QD_STEP " ++ toString ch.toNat ++ ", " ++ toString inp.toNat
  | .qdAngle ch inp => "QD_ANGLE " ++ toString ch.toNat ++ ", " ++ toString inp.toNat
  | .classify b sample => "CLASSIFY " ++ toString b.toNat ++ ", " ++ toString sample.toNat
  | .joyClassify x y => "JOY_CLASSIFY " ++ toString x.toNat ++ ", " ++ toString y.toNat
  | .cfgRead addr => "CFG_READ " ++ toString addr.toNat
  | .cfgWrite addr data => "CFG_WRITE " ++ toString addr.toNat ++ ", " ++ toString data.toNat

end Sys2Proof
end

