-- ==== Sys2Proof/Machine/Regs.lean ====
section
/-! DEFINITION. The contexts and registers of phi_core as data (10_state.md), with the bit layouts of the packed
registers and their values after reset (R49). A packed register is held as its fields, so its reserved bits are 0 in
every state (log 9). -/

namespace Sys2Proof.Machine

/-- The error codes of R221 that a command can end with. -/
inductive ErrCode where
  | illegalOpcode | reservedBits | badChannel | badOperand | badAddress | readOnly | badValue | badConfig
  deriving DecidableEq, Repr

/-- The number of an error code (R221). -/
def ErrCode.num : ErrCode → Nat
  | .illegalOpcode => 1
  | .reservedBits => 2
  | .badChannel => 3
  | .badOperand => 4
  | .badAddress => 5
  | .readOnly => 6
  | .badValue => 7
  | .badConfig => 8

/-- DebounceState (R24). `pressed` is passed through inside one DB_STEP (R25, R125). -/
inductive DbState where
  | up | debounce | pressed | down | released | held
  deriving DecidableEq, Repr

/-- The encoding of a DebounceState (R24). -/
def DbState.code : DbState → BitVec 3
  | .up => 0
  | .debounce => 1
  | .pressed => 2
  | .down => 3
  | .released => 4
  | .held => 5

/-- A debounce context `DB[ch]` (R23). -/
structure DbCtx where
  state : DbState
  tracked : Code
  t0 : Time
  deriving DecidableEq, Repr

/-- The sensing variants of a quadrature channel, QD_CTRL.MODE (R40). -/
inductive SenseMode where
  | digital   -- MODE = 0
  | analog    -- MODE = 1
  deriving DecidableEq, Repr

/-- QD_CTRL (R40). -/
structure QdCtrl where
  mode : SenseMode
  invert : Bool
  bank : Chan
  deriving DecidableEq, Repr

/-- A quadrature context `QD[ch]` (R28) with its control registers (R40, R41). -/
structure QdChan where
  seq : BitVec 4
  pos : Word
  prev : BitVec 2
  ctrl : QdCtrl
  detents : BitVec 16
  deriving DecidableEq, Repr

/-- A reference bank (R43 to R45). COUNT's legal values are 0..16. -/
structure Bank where
  count : Fin 17
  tol : Level
  refs : Vector Level 16
  deriving DecidableEq, Repr

/-- The timing configuration CFG (R31 to R36), one copy for all debounce channels. -/
structure Timing where
  holdTime : Time
  debounceTime : Time
  repeatTime : Time
  dashThreshold : Time
  dashTime : Time
  deriving DecidableEq, Repr

/-- JOY_CTRL (R38). -/
structure JoyCtrl where
  bankX : Chan
  bankY : Chan
  centerX : BitVec 4
  centerY : BitVec 4
  deriving DecidableEq, Repr

/-- RESP and RERR of one command (R22, R95). -/
structure Response where
  resp : Word
  rerr : BitVec 4
  deriving DecidableEq, Repr

/-- What the host and the environment present to one step: a command with its DATA and the `now` input (R22, R250),
or the RST input asserted between two commands (R260). -/
inductive Input where
  | command (cmd data : Word) (now : Time)
  | reset
  deriving DecidableEq, Repr

/-- The fields of JOY_CTRL in a data word (R38, R204). -/
def JoyCtrl.ofWord (v : Word) : JoyCtrl where
  bankX := v.extractLsb' 0 4
  bankY := v.extractLsb' 4 4
  centerX := v.extractLsb' 8 4
  centerY := v.extractLsb' 12 4

/-- JOY_CTRL as CFG_READ gives it; bits [31:16] read 0 (R38, R61). -/
def JoyCtrl.toWord (j : JoyCtrl) : Word :=
  j.centerY.setWidth 32 <<< 12 ||| j.centerX.setWidth 32 <<< 8 ||| j.bankY.setWidth 32 <<< 4 ||| j.bankX.setWidth 32

/-- The bit of a sensing mode. -/
def SenseMode.bit : SenseMode → BitVec 1
  | .digital => 0
  | .analog => 1

/-- The fields of QD_CTRL in a data word (R40, R204). -/
def QdCtrl.ofWord (v : Word) : QdCtrl where
  mode := if v.getLsbD 0 then .analog else .digital
  invert := v.getLsbD 1
  bank := v.extractLsb' 4 4

/-- QD_CTRL as CFG_READ gives it; bits [3:2] and [31:8] read 0 (R40, R61). -/
def QdCtrl.toWord (c : QdCtrl) : Word :=
  c.bank.setWidth 32 <<< 4 ||| (BitVec.ofBool c.invert).setWidth 32 <<< 1 ||| c.mode.bit.setWidth 32

/-- QD_DETENTS's field in a data word (R41). -/
def detentsOfWord (v : Word) : BitVec 16 := v.extractLsb' 0 16

/-- BANK_COUNT's field in a data word that passed its check (R43, R206). -/
def countOfWord (v : Word) : Fin 17 := Fin.ofNat 17 v.toNat

/-- The field of BANK_TOL or BANK_REF in a data word that passed its check (R44, R45, R206). -/
def levelOfWord (v : Word) : Level := v.extractLsb' 0 12

/-- Sixteen reference slots from a list of words; a word the list lacks counts as 0, which no well-formed
configuration reaches (R7 asks for sixteen). -/
def refsOfWords (ws : List Word) : Vector Level 16 :=
  #v[levelOfWord (ws.getD 0 0), levelOfWord (ws.getD 1 0), levelOfWord (ws.getD 2 0), levelOfWord (ws.getD 3 0),
     levelOfWord (ws.getD 4 0), levelOfWord (ws.getD 5 0), levelOfWord (ws.getD 6 0), levelOfWord (ws.getD 7 0),
     levelOfWord (ws.getD 8 0), levelOfWord (ws.getD 9 0), levelOfWord (ws.getD 10 0), levelOfWord (ws.getD 11 0),
     levelOfWord (ws.getD 12 0), levelOfWord (ws.getD 13 0), levelOfWord (ws.getD 14 0), levelOfWord (ws.getD 15 0)]

/-- A debounce context after reset (R49): Up, NONE_RAW, 0. -/
def DbCtx.atReset : DbCtx := ⟨.up, noneRaw, 0⟩

/-- Quadrature channel c after reset (R49): seq 4, pos 0, prev 3, the control registers at their construction values. -/
def QdChan.atReset (p : Params) (c : Nat) : QdChan where
  seq := 4
  pos := 0
  prev := 3
  ctrl := QdCtrl.ofWord (p.rstQdCtrl.getD c 0)
  detents := detentsOfWord (p.rstQdDetents.getD c 0)

/-- Bank b after reset (R49): its construction values. -/
def Bank.atReset (p : Params) (b : Nat) : Bank where
  count := countOfWord (p.rstBankCount.getD b 0)
  tol := levelOfWord (p.rstBankTol.getD b 0)
  refs := refsOfWords (p.rstBankRef.getD b [])

/-- The timing configuration after reset (R49): its construction values. -/
def Timing.atReset (p : Params) : Timing where
  holdTime := p.rstHoldTime
  debounceTime := p.rstDebounceTime
  repeatTime := p.rstRepeatTime
  dashThreshold := p.rstDashThreshold
  dashTime := p.rstDashTime

end Sys2Proof.Machine
end

