-- ==== Sys2Proof/Machine/State.lean ====
section
/-! DEFINITION. The state of phi_core (R20), the reasons a step can stop, and the state after reset (R49, R260). -/

namespace Sys2Proof.Machine

/-- The reasons a step stops the model. The hardware never stops by itself (R250); each reason below is a state that
no run from the reset of a well-formed instance reaches, and to which the spec gives no effect (log 8). All are SAFE. -/
inductive Fault where
  /-- A channel below N_DB or N_QD has no context. Raised by DB_STEP, QD_STEP, QD_ANGLE, CFG_READ and CFG_WRITE.
  R20 gives every such channel one. Safe. -/
  | missingChannel
  /-- A bank number in use names no bank. Raised by CLASSIFY, JOY_CLASSIFY, the analog variant of QD_STEP and
  QD_ANGLE, CFG_READ and CFG_WRITE. R206 keeps such numbers out of the registers. Safe. -/
  | missingBank
  /-- The sequence index is not in 1..7, so the table has no two neighbours for it. Raised by QD_STEP and QD_ANGLE.
  R29 and I31 say it is never produced at a step boundary. Safe. -/
  | seqOffTable
  /-- QD_DETENTS is 0. Raised by QD_ANGLE. R41 and R206 keep 0 out of the register. Safe. -/
  | zeroDetents
  deriving DecidableEq, Repr

/-- An instruction the model has no meaning for. -/
inductive Refusal where
  /-- Raised by `exec`'s arm of an instruction that is not modelled yet: there is none. Safe. -/
  | notModelled (mnemonic : String)
  deriving DecidableEq, Repr

/-- The state: first the spec's own (R20), then the model's: the instance it is a state of (log 1) and its ports
(R22; logs 4, 6, 7). -/
structure State where
  /-- CFG, the five duration registers (R31 to R36). -/
  timing : Timing
  /-- ERR, the sticky error register (R37). -/
  err : Word
  /-- JOY_CTRL (R38). -/
  joyCtrl : JoyCtrl
  /-- DB[0..N_DB-1] (R23). -/
  db : List DbCtx
  /-- QD[0..N_QD-1] with QD_CTRL and QD_DETENTS (R28, R40, R41). -/
  qd : List QdChan
  /-- BANK[0..N_BANK-1] (R43 to R45). -/
  bank : List Bank
  /-- The instance's parameters (R6 to R8); no step writes them. -/
  params : Params
  /-- The `now` input (R21) at the step being taken. -/
  now : Time
  /-- RESP and RERR of the step just taken; none where it ran no command. -/
  response : Option Response
  /-- What the host presents from here on, in order (R27, R250). -/
  inputs : List Input
  deriving DecidableEq, Repr

/-- Every piece of state of an instance p after reset (R49), with no response and nothing presented. -/
def State.resetOf (p : Params) : State where
  timing := Timing.atReset p
  err := 0
  joyCtrl := JoyCtrl.ofWord p.rstJoyCtrl
  db := List.replicate p.nDb DbCtx.atReset
  qd := (List.range p.nQd).map (QdChan.atReset p)
  bank := (List.range p.nBank).map (Bank.atReset p)
  params := p
  now := 0
  response := none
  inputs := []

/-- The machine right after reset, for the one instance the spec writes out (DESIGN CHOICE, log 2). -/
def State.reset : State := State.resetOf Params.testInstance

end Sys2Proof.Machine
end

