-- ==== Sys2Proof/Machine/Flags.lean ====
section
/-! DEFINITION. The bits a command reports: the ERR bits (R37, R224) and the response fields (R95, R96). phi_core
has no other flags (R46). -/

namespace Sys2Proof.Machine

/-- The ERR bit of an error code: `1 << k` (R224). -/
def ErrCode.bit (e : ErrCode) : Word := 1#32 <<< e.num

/-- RERR of an error code (R221). -/
def ErrCode.rerr (e : ErrCode) : BitVec 4 := BitVec.ofNat 4 e.num

/-- The bits of ERR that exist, 1 to 8; the others read 0 (R37). -/
def errMask : Word := 0x1FE

/-- The rotation event of a decode step (R96, R153). -/
inductive Rot where
  | none | up | down
  deriving DecidableEq, Repr

/-- ROT (R96): 0b00 no event, 0b01 Up, 0b10 Down. -/
def Rot.code : Rot → BitVec 2
  | .none => 0
  | .up => 1
  | .down => 2

/-- RESP of DB_STEP (R95, R120): EV in bit 31 and the emitted code, or NONE_RAW. -/
def respEmission : Option Code → Word
  | some c => 0x80000000 ||| c.setWidth 32
  | Option.none => 0x000000FF

/-- RESP of QD_STEP (R95): ROT in bits 1:0. -/
def respRot (r : Rot) : Word := r.code.setWidth 32

/-- RESP of QD_ANGLE (R95, R155): ANGLE in bits 31:16, ROT in bits 1:0. -/
def respAngle (a : BitVec 16) (r : Rot) : Word := a.setWidth 32 <<< 16 ||| r.code.setWidth 32

/-- RESP of CLASSIFY (R95, R182): MATCH in bit 31, IDX in bits 3:0; all 0 when nothing matched. -/
def respMatch : Option (BitVec 4) → Word
  | some i => 0x80000000 ||| i.setWidth 32
  | Option.none => 0

/-- RESP of JOY_CLASSIFY (R95, R183): DIR in bit 31, IY in bits 7:4, IX in bits 3:0; all 0 for no direction. -/
def respDirection : Option (BitVec 4 × BitVec 4) → Word
  | some (ix, iy) => 0x80000000 ||| iy.setWidth 32 <<< 4 ||| ix.setWidth 32
  | Option.none => 0

end Sys2Proof.Machine
end

