-- ==== Sys2Proof/Machine/Ops.lean ====
section
/-! DEFINITION. The shared operations: how a command ends (raising an error, completing), and the accesses to the
contexts and banks. phi_core has no memory (R60) and no trap to enter or return from (R227, R228): raising an error is
all there is of exception entry. -/

namespace Sys2Proof.Machine

/-- Why a command did not run to its end: an error of R221, which is a next state, or a fault of the model. -/
inductive Stop where
  | error (e : ErrCode)
  | fault (f : Fault)
  deriving DecidableEq, Repr

/-- `raise Error(code)` (R10, R223, R224): ERR gains the code's bit, RESP is 0, RERR is the code, nothing else
changes. -/
def raise (e : ErrCode) (s : State) : State :=
  { s with err := s.err ||| e.bit, response := some ⟨0, e.rerr⟩ }

/-- The end of a command that raised nothing: RESP is v, RERR is 0 (R95). -/
def respond (v : Word) (s : State) : State := { s with response := some ⟨v, 0⟩ }

/-- The outcome of a command from s: its writes and response if it ran to its end; if it raised, none of its writes,
because the error is raised on s itself (R223: errors are precise). -/
def complete (s : State) : Except Stop (State × Word) → Host.Outcome State Fault Refusal
  | .ok (t, v) => .next (respond v t)
  | .error (.error e) => .next (raise e s)
  | .error (.fault f) => .fault f

/-- A check of a command's pseudocode: `if not b: raise Error(e)`. -/
def require (b : Bool) (e : ErrCode) : Except Stop Unit :=
  if b then .ok () else .error (.error e)

/-- The context `DB[ch]` (R23). -/
def State.getDb (s : State) (ch : Chan) : Except Stop DbCtx :=
  match s.db[ch.toNat]? with
  | some c => .ok c
  | none => .error (.fault .missingChannel)

/-- `DB[ch] <- c`. -/
def State.setDb (s : State) (ch : Chan) (c : DbCtx) : State := { s with db := s.db.set ch.toNat c }

/-- The context and control registers of quadrature channel ch (R28). -/
def State.getQd (s : State) (ch : Chan) : Except Stop QdChan :=
  match s.qd[ch.toNat]? with
  | some q => .ok q
  | none => .error (.fault .missingChannel)

/-- `QD[ch] <- q`. -/
def State.setQd (s : State) (ch : Chan) (q : QdChan) : State := { s with qd := s.qd.set ch.toNat q }

/-- The bank `BANK[b]` (R43 to R45). -/
def State.getBank (s : State) (b : Chan) : Except Stop Bank :=
  match s.bank[b.toNat]? with
  | some k => .ok k
  | none => .error (.fault .missingBank)

/-- `BANK[b] <- k`. -/
def State.setBank (s : State) (b : Chan) (k : Bank) : State := { s with bank := s.bank.set b.toNat k }

/-- The RST input (R260): every piece of state takes its value of R49. Reset has no response. The instance, the
clock and what the host presents next are not the block's state and stay. -/
def applyReset (s : State) : State :=
  { State.resetOf s.params with now := s.now, inputs := s.inputs }

/-- With no command presented the block does nothing (R232, R233, R250: it waits for the next command). -/
def waitForCommand (s : State) : State := { s with response := none }

end Sys2Proof.Machine
end

