-- ==== Sys2Proof/Machine/RegMap.lean ====
section
/-! DEFINITION. The register space (20_memory.md): the names, addresses and decoding of R63, RegRead (R61) and
RegWrite (R62). -/

namespace Sys2Proof.Machine

/-- The registers by name (R63). -/
inductive Reg where
  | holdTime | debounceTime | repeatTime | dashThreshold | dashTime | err | joyCtrl
  | dbState (ch : Chan) | dbTracked (ch : Chan) | dbT0 (ch : Chan)
  | qdCtrl (ch : Chan) | qdDetents (ch : Chan) | qdSeq (ch : Chan) | qdPos (ch : Chan) | qdPrev (ch : Chan)
  | bankCount (b : Chan) | bankTol (b : Chan) | bankRef (b : Chan) (i : BitVec 4)
  deriving DecidableEq, Repr

/-- The address of a debounce channel's register k: `0x100 + 4*ch + k`. -/
def dbAddr (ch : Chan) (k : Nat) : Addr := BitVec.ofNat 12 (0x100 + 4 * ch.toNat + k)
/-- The address of a quadrature channel's register k: `0x200 + 8*ch + k`. -/
def qdAddr (ch : Chan) (k : Nat) : Addr := BitVec.ofNat 12 (0x200 + 8 * ch.toNat + k)
/-- The address of a bank's register k: `0x400 + 32*b + k`. -/
def bankAddr (b : Chan) (k : Nat) : Addr := BitVec.ofNat 12 (0x400 + 32 * b.toNat + k)

/-- The address of a register (the table of R63). -/
def Reg.addr : Reg → Addr
  | .holdTime => 0x000
  | .debounceTime => 0x001
  | .repeatTime => 0x002
  | .dashThreshold => 0x003
  | .dashTime => 0x004
  | .err => 0x008
  | .joyCtrl => 0x009
  | .dbState ch => dbAddr ch 0
  | .dbTracked ch => dbAddr ch 1
  | .dbT0 ch => dbAddr ch 2
  | .qdCtrl ch => qdAddr ch 0
  | .qdDetents ch => qdAddr ch 1
  | .qdSeq ch => qdAddr ch 2
  | .qdPos ch => qdAddr ch 3
  | .qdPrev ch => qdAddr ch 4
  | .bankCount b => bankAddr b 0
  | .bankTol b => bankAddr b 1
  | .bankRef b i => bankAddr b (16 + i.toNat)

/-- The registers below 0x00A (R63). -/
def decodeLow (a : Nat) : Option Reg :=
  match a with
  | 0 => some .holdTime
  | 1 => some .debounceTime
  | 2 => some .repeatTime
  | 3 => some .dashThreshold
  | 4 => some .dashTime
  | 8 => some .err
  | 9 => some .joyCtrl
  | _ => none

/-- Register k of debounce channel ch; k = 3 is unmapped. -/
def decodeDb (ch : Chan) (k : Nat) : Option Reg :=
  match k with
  | 0 => some (.dbState ch)
  | 1 => some (.dbTracked ch)
  | 2 => some (.dbT0 ch)
  | _ => none

/-- Register k of quadrature channel ch; k = 5, 6, 7 are unmapped. -/
def decodeQd (ch : Chan) (k : Nat) : Option Reg :=
  match k with
  | 0 => some (.qdCtrl ch)
  | 1 => some (.qdDetents ch)
  | 2 => some (.qdSeq ch)
  | 3 => some (.qdPos ch)
  | 4 => some (.qdPrev ch)
  | _ => none

/-- Register k of bank b; k = 2 to 15 are unmapped. -/
def decodeBank (b : Chan) (k : Nat) : Option Reg :=
  if k = 0 then some (.bankCount b)
  else if k = 1 then some (.bankTol b)
  else if 16 ≤ k then some (.bankRef b (BitVec.ofNat 4 (k - 16)))
  else none

/-- The decoding of an address (the pseudocode of R63); none where it is unmapped. -/
def decodeAddr (p : Params) (addr : Addr) : Option Reg :=
  let a := addr.toNat
  if a < 0x00A then decodeLow a
  else if 0x100 ≤ a ∧ a < 0x140 then
    let ch := (a - 0x100) / 4
    if ch < p.nDb then decodeDb (BitVec.ofNat 4 ch) (a % 4) else none
  else if 0x200 ≤ a ∧ a < 0x280 then
    let ch := (a - 0x200) / 8
    if ch < p.nQd then decodeQd (BitVec.ofNat 4 ch) (a % 8) else none
  else if 0x400 ≤ a ∧ a < 0x600 then
    let b := (a - 0x400) / 32
    if b < p.nBank then decodeBank (BitVec.ofNat 4 b) (a % 32) else none
  else none

/-- The read-only registers (R203). -/
def Reg.readOnly : Reg → Bool
  | .err => true
  | .dbState _ => true
  | .dbTracked _ => true
  | .dbT0 _ => true
  | .qdSeq _ => true
  | .qdPos _ => true
  | .qdPrev _ => true
  | .holdTime => false
  | .debounceTime => false
  | .repeatTime => false
  | .dashThreshold => false
  | .dashTime => false
  | .joyCtrl => false
  | .qdCtrl _ => false
  | .qdDetents _ => false
  | .bankCount _ => false
  | .bankTol _ => false
  | .bankRef _ _ => false

/-- The write-validity check of a register (R206); a read-only register has none. -/
def Reg.valid (p : Params) : Reg → Word → Bool
  | .joyCtrl, v => validJoyCtrl p v
  | .qdCtrl _, v => validQdCtrl p v
  | .qdDetents _, v => validQdDetents v
  | .bankCount _, v => validBankCount v
  | .bankTol _, v => validLevel p v
  | .bankRef _ _, v => validLevel p v
  | .holdTime, _ => true
  | .debounceTime, _ => true
  | .repeatTime, _ => true
  | .dashThreshold, _ => true
  | .dashTime, _ => true
  | .err, _ => true
  | .dbState _, _ => true
  | .dbTracked _, _ => true
  | .dbT0 _, _ => true
  | .qdSeq _, _ => true
  | .qdPos _, _ => true
  | .qdPrev _, _ => true

/-- The value of a register as a 32-bit word, bits outside its fields 0 (R61, R31 to R45). -/
def Reg.read (s : State) : Reg → Except Stop Word
  | .holdTime => .ok s.timing.holdTime
  | .debounceTime => .ok s.timing.debounceTime
  | .repeatTime => .ok s.timing.repeatTime
  | .dashThreshold => .ok s.timing.dashThreshold
  | .dashTime => .ok s.timing.dashTime
  | .err => .ok (s.err &&& errMask)
  | .joyCtrl => .ok s.joyCtrl.toWord
  | .dbState ch => (s.getDb ch).map (fun c => c.state.code.setWidth 32)
  | .dbTracked ch => (s.getDb ch).map (fun c => c.tracked.setWidth 32)
  | .dbT0 ch => (s.getDb ch).map (fun c => c.t0)
  | .qdCtrl ch => (s.getQd ch).map (fun q => q.ctrl.toWord)
  | .qdDetents ch => (s.getQd ch).map (fun q => q.detents.setWidth 32)
  | .qdSeq ch => (s.getQd ch).map (fun q => q.seq.setWidth 32)
  | .qdPos ch => (s.getQd ch).map (fun q => q.pos)
  | .qdPrev ch => (s.getQd ch).map (fun q => q.prev.setWidth 32)
  | .bankCount b => (s.getBank b).map (fun k => BitVec.ofNat 32 k.count.val)
  | .bankTol b => (s.getBank b).map (fun k => k.tol.setWidth 32)
  | .bankRef b i => (s.getBank b).map (fun k => (k.refs[i.toNat]'i.isLt).setWidth 32)

/-- The fields of a register set to the bits of v at their places (R62, R204); nothing else changes (R207). A
read-only register is not written: RegWrite refuses it before it comes here. -/
def Reg.write (s : State) (v : Word) : Reg → Except Stop State
  | .holdTime => .ok { s with timing := { s.timing with holdTime := v } }
  | .debounceTime => .ok { s with timing := { s.timing with debounceTime := v } }
  | .repeatTime => .ok { s with timing := { s.timing with repeatTime := v } }
  | .dashThreshold => .ok { s with timing := { s.timing with dashThreshold := v } }
  | .dashTime => .ok { s with timing := { s.timing with dashTime := v } }
  | .joyCtrl => .ok { s with joyCtrl := JoyCtrl.ofWord v }
  | .qdCtrl ch => (s.getQd ch).map (fun q => s.setQd ch { q with ctrl := QdCtrl.ofWord v })
  | .qdDetents ch => (s.getQd ch).map (fun q => s.setQd ch { q with detents := detentsOfWord v })
  | .bankCount b => (s.getBank b).map (fun k => s.setBank b { k with count := countOfWord v })
  | .bankTol b => (s.getBank b).map (fun k => s.setBank b { k with tol := levelOfWord v })
  | .bankRef b i => (s.getBank b).map (fun k => s.setBank b { k with refs := k.refs.set i.toNat (levelOfWord v) i.isLt })
  | .err => .error (.error .readOnly)
  | .dbState _ => .error (.error .readOnly)
  | .dbTracked _ => .error (.error .readOnly)
  | .dbT0 _ => .error (.error .readOnly)
  | .qdSeq _ => .error (.error .readOnly)
  | .qdPos _ => .error (.error .readOnly)
  | .qdPrev _ => .error (.error .readOnly)

/-- RegRead (R61). -/
def regRead (s : State) (addr : Addr) : Except Stop Word :=
  match decodeAddr s.params addr with
  | none => .error (.error .badAddress)
  | some r => r.read s

/-- RegWrite (R62): BAD_ADDRESS, then READ_ONLY, then BAD_VALUE, then the write. -/
def regWrite (s : State) (addr : Addr) (v : Word) : Except Stop State :=
  match decodeAddr s.params addr with
  | none => .error (.error .badAddress)
  | some r =>
    if r.readOnly then .error (.error .readOnly)
    else if !r.valid s.params v then .error (.error .badValue)
    else r.write s v

end Sys2Proof.Machine
end

