-- ==== Sys2Proof/Machine/ConfigAccess.lean ====
section
/-! DEFINITION. The meanings of NOP, CFG_READ and CFG_WRITE (43_config_access.md). -/

namespace Sys2Proof.Machine

/-- NOP (R200): RESP 0, RERR 0, no state written. -/
def execNop (s : State) : Host.Outcome State Fault Refusal := complete s (.ok (s, 0))

/-- CFG_READ (R201): RESP is RegRead(addr). -/
def execCfgRead (addr : Addr) (s : State) : Host.Outcome State Fault Refusal :=
  complete s (match regRead s addr with
    | .ok v => .ok (s, v)
    | .error e => .error e)

/-- CFG_WRITE (R202): RegWrite(addr, DATA); RESP 0. -/
def execCfgWrite (addr : Addr) (data : Word) (s : State) : Host.Outcome State Fault Refusal :=
  complete s (match regWrite s addr data with
    | .ok t => .ok (t, 0)
    | .error e => .error e)

end Sys2Proof.Machine
end

