-- ==== Sys2Proof/Machine/Operands.lean ====
section
/-! DEFINITION. The operand forms (R84 to R90): the checks on a channel number, a raw code, a sample and a digital
reading that a command's own rule makes after decoding. -/

namespace Sys2Proof.Machine

/-- `if ch >= n: raise Error(BAD_CHANNEL)` (R120, R150, R155, R182). -/
def checkChannel (ch : Chan) (n : Nat) : Except Stop Unit :=
  require (decide (ch.toNat < n)) .badChannel

/-- `if raw != NONE_RAW and raw >= N_CODES: raise Error(BAD_OPERAND)` (R84, R120). -/
def checkRaw (p : Params) (raw : Code) : Except Stop Unit :=
  require (decide (raw = noneRaw) || decide (raw.toNat < p.nCodes)) .badOperand

/-- An operand's bits at and above SAMPLE_W are 0 (R85 to R87); otherwise BAD_OPERAND. -/
def checkSample (p : Params) (v : Nat) : Except Stop Unit :=
  require (decide (v < 2 ^ p.sampleW)) .badOperand

/-- In digital mode IN[15:2] is 0 (R85, R151); otherwise BAD_OPERAND. -/
def checkDigital (inp : BitVec 16) : Except Stop Unit :=
  require (inp.extractLsb' 2 14 == 0) .badOperand

/-- The 2-bit reading IN[1:0] of digital mode, complemented when INVERT is set (R151). -/
def digitalReading (invert : Bool) (inp : BitVec 16) : BitVec 2 :=
  if invert then inp.extractLsb' 0 2 ^^^ 0b11 else inp.extractLsb' 0 2

end Sys2Proof.Machine
end

