-- ==== Sys2Proof/Machine/Debounce.lean ====
section
/-! DEFINITION. The debounce state machine and DB_STEP (40_debounce.md). Each arm gives the context after the step
and the emission. -/

namespace Sys2Proof.Machine

/-- `el = wrap_32(now - t0)` (R121). -/
def elapsed (now t0 : Time) : Time := now - t0

/-- State Up (R123): the capture is an explicit assignment (R133). -/
def armUp (now : Time) (raw : Code) (c : DbCtx) : DbCtx × Option Code :=
  if raw = noneRaw then (c, none) else (⟨.debounce, raw, now⟩, none)

/-- State Pressed (R125). The second and third branches are reached by no run (I1, I2). -/
def armPressed (now : Time) (raw : Code) (c : DbCtx) : DbCtx :=
  if raw ≠ noneRaw ∧ raw = c.tracked then { c with state := .down, t0 := now }
  else if raw ≠ noneRaw then ⟨.debounce, raw, now⟩
  else { c with state := .released, t0 := now }

/-- State Debounce (R124). The confirm emission passes through Pressed in the same step. -/
def armDebounce (timing : Timing) (now : Time) (raw : Code) (el : Time) (c : DbCtx) : DbCtx × Option Code :=
  if raw = noneRaw then (⟨.up, noneRaw, now⟩, none)
  else if raw ≠ c.tracked then ({ c with tracked := raw, t0 := now }, none)
  else if el ≥ timing.debounceTime then
    (armPressed now raw { c with state := .pressed, t0 := now }, some c.tracked)
  else (c, none)

/-- State Down (R126). Entering Held emits the first repeat (C1). -/
def armDown (timing : Timing) (now : Time) (raw : Code) (el : Time) (c : DbCtx) : DbCtx × Option Code :=
  if raw = noneRaw ∨ raw ≠ c.tracked then ({ c with state := .released, t0 := now }, none)
  else if el ≥ timing.holdTime then ({ c with state := .held, t0 := now }, some c.tracked)
  else (c, none)

/-- State Released (R127). -/
def armReleased (now : Time) (raw : Code) : DbCtx × Option Code :=
  if raw = noneRaw then (⟨.up, noneRaw, now⟩, none) else (⟨.debounce, raw, now⟩, none)

/-- State Held (R128). Losing the code emits it once more (C5). -/
def armHeld (timing : Timing) (now : Time) (raw : Code) (el : Time) (c : DbCtx) : DbCtx × Option Code :=
  if raw = noneRaw ∨ raw ≠ c.tracked then ({ c with state := .released, t0 := now }, some c.tracked)
  else if el ≥ timing.repeatTime then ({ c with t0 := now }, some c.tracked)
  else (c, none)

/-- One poll cycle of a context: the case distinction of R120. -/
def dbPoll (timing : Timing) (now : Time) (raw : Code) (c : DbCtx) : DbCtx × Option Code :=
  let el := elapsed now c.t0
  match c.state with
  | .up => armUp now raw c
  | .debounce => armDebounce timing now raw el c
  | .pressed => (armPressed now raw c, none)
  | .down => armDown timing now raw el c
  | .released => armReleased now raw
  | .held => armHeld timing now raw el c

/-- DB_STEP (R120): BAD_CHANNEL, then BAD_OPERAND, then one poll cycle of DB[ch]. -/
def dbStepBody (ch : Chan) (raw : Code) (s : State) : Except Stop (State × Word) := do
  checkChannel ch s.params.nDb
  checkRaw s.params raw
  let c ← s.getDb ch
  let r := dbPoll s.timing s.now raw c
  return (s.setDb ch r.1, respEmission r.2)

/-- DB_STEP (R120). -/
def execDbStep (ch : Chan) (raw : Code) (s : State) : Host.Outcome State Fault Refusal :=
  complete s (dbStepBody ch raw s)

end Sys2Proof.Machine
end

