-- ==== Sys2Proof/Machine/Classifier.lean ====
section
/-! DEFINITION. The analog classifier, CLASSIFY and JOY_CLASSIFY (42_classifier.md). -/

namespace Sys2Proof.Machine

/-- `abs(a - b)` over the integers, no wrap (R180). -/
def absDiff (a b : Nat) : Nat := (a - b) + (b - a)

/-- `within(diff, tol)` (R181). -/
def within (cmp : TolCmp) (diff tol : Nat) : Bool :=
  match cmp with
  | .le => decide (diff ≤ tol)
  | .lt => decide (diff < tol)

/-- The linear scan of R180 over references, the first of them having index i. -/
def scanRefs (cmp : TolCmp) (tol sample : Nat) : List Level → Nat → Option Nat
  | [], _ => none
  | r :: rs, i => if within cmp (absDiff sample r.toNat) tol then some i else scanRefs cmp tol sample rs (i + 1)

/-- classify over one bank (R180): REF[0..COUNT-1] alone take part. -/
def classifyIn (cmp : TolCmp) (k : Bank) (sample : Nat) : Option (BitVec 4) :=
  (scanRefs cmp k.tol.toNat sample (k.refs.toList.take k.count.val) 0).map (BitVec.ofNat 4)

/-- classify(sample, b) (R180). -/
def classifyAt (s : State) (b : Chan) (sample : Nat) : Except Stop (Option (BitVec 4)) :=
  (s.getBank b).map (fun k => classifyIn s.params.tolCmp k sample)

/-- CLASSIFY (R182). -/
def classifyBody (b : Chan) (sample : BitVec 16) (s : State) : Except Stop (State × Word) := do
  checkChannel b s.params.nBank
  checkSample s.params sample.toNat
  let m ← classifyAt s b sample.toNat
  return (s, respMatch m)

/-- CLASSIFY (R182). -/
def execClassify (b : Chan) (sample : BitVec 16) (s : State) : Host.Outcome State Fault Refusal :=
  complete s (classifyBody b sample s)

/-- The direction of two axis results (R183): none when an axis has no match or both are at their center. -/
def joyDirection (j : JoyCtrl) (mx my : Option (BitVec 4)) : Option (BitVec 4 × BitVec 4) :=
  match mx, my with
  | some ix, some iy => if ix = j.centerX ∧ iy = j.centerY then none else some (ix, iy)
  | some _, none => none
  | none, some _ => none
  | none, none => none

/-- JOY_CLASSIFY (R183). -/
def joyClassifyBody (x y : BitVec 12) (s : State) : Except Stop (State × Word) := do
  checkSample s.params x.toNat
  checkSample s.params y.toNat
  let mx ← classifyAt s s.joyCtrl.bankX x.toNat
  let my ← classifyAt s s.joyCtrl.bankY y.toNat
  return (s, respDirection (joyDirection s.joyCtrl mx my))

/-- JOY_CLASSIFY (R183). -/
def execJoyClassify (x y : BitVec 12) (s : State) : Host.Outcome State Fault Refusal :=
  complete s (joyClassifyBody x y s)

end Sys2Proof.Machine
end

