-- ==== Sys2Proof/Machine/Quadrature.lean ====
section
/-! DEFINITION. The quadrature decoder, QD_STEP and QD_ANGLE (41_quadrature.md). -/

namespace Sys2Proof.Machine

/-- The sequence table T (R30), a constant of the hardware: indices 0 to 8, center 4. -/
def seqTable : List (BitVec 2) := [3, 2, 0, 1, 3, 2, 0, 1, 3]

/-- T[i], for i in 0..8. -/
def seqT (i : Nat) : BitVec 2 := seqTable.getD i 3

/-- Digital sensing (R151); `prev` is not written. -/
def senseDigital (q : QdChan) (inp : BitVec 16) : Except Stop (QdChan × BitVec 2) := do
  checkDigital inp
  return (q, digitalReading q.ctrl.invert inp)

/-- The 2-bit state of a classification (R152): reference index i is state i, and every match becomes the new
`prev`; with no match the previous valid state is returned. -/
def analogReading (q : QdChan) (m : Option (BitVec 4)) : QdChan × BitVec 2 :=
  match m with
  | some i => ({ q with prev := i.extractLsb' 0 2 }, i.extractLsb' 0 2)
  | none => (q, q.prev)

/-- Analog sensing (R152): BAD_OPERAND, then BAD_CONFIG unless the bank has four references. INVERT has no effect. -/
def senseAnalog (s : State) (q : QdChan) (inp : BitVec 16) : Except Stop (QdChan × BitVec 2) := do
  checkSample s.params inp.toNat
  let k ← s.getBank q.ctrl.bank
  require (decide (k.count.val = 4)) .badConfig
  return analogReading q (classifyIn s.params.tolCmp k inp.toNat)

/-- Sensing by the channel's mode (R150). -/
def sense (s : State) (q : QdChan) (inp : BitVec 16) : Except Stop (QdChan × BitVec 2) :=
  match q.ctrl.mode with
  | .digital => senseDigital q inp
  | .analog => senseAnalog s q inp

/-- The decode step (R153) for an index in 1..7; the counter wraps (R154). -/
def decodeRot (q : QdChan) (r : BitVec 2) : QdChan × Rot :=
  if r = seqT (q.seq.toNat + 1) then
    if q.seq.toNat + 1 = 8 then ({ q with seq := 4, pos := q.pos + 1 }, .up)
    else ({ q with seq := q.seq + 1 }, .none)
  else if r = seqT (q.seq.toNat - 1) then
    if q.seq.toNat - 1 = 0 then ({ q with seq := 4, pos := q.pos - 1 }, .down)
    else ({ q with seq := q.seq - 1 }, .none)
  else (q, .none)

/-- The decode step in every state: off the range of R29 the spec gives it no effect (log 8). -/
def decodeStep (q : QdChan) (r : BitVec 2) : Except Stop (QdChan × Rot) :=
  if 1 ≤ q.seq.toNat ∧ q.seq.toNat ≤ 7 then .ok (decodeRot q r) else .error (.fault .seqOffTable)

/-- What QD_STEP and QD_ANGLE share (R150, R155): BAD_CHANNEL, sensing, one decode step. -/
def quadStep (ch : Chan) (inp : BitVec 16) (s : State) : Except Stop (QdChan × Rot) := do
  checkChannel ch s.params.nQd
  let q ← s.getQd ch
  let sensed ← sense s q inp
  decodeStep sensed.1 sensed.2

/-- The angle (R156): `pos fmod d`, in 0..d-1 whatever the counter's sign. -/
def angleOf (pos : Word) (d : BitVec 16) : BitVec 16 := BitVec.ofInt 16 (pos.toInt % (d.toNat : Int))

/-- QD_STEP (R150). -/
def qdStepBody (ch : Chan) (inp : BitVec 16) (s : State) : Except Stop (State × Word) := do
  let r ← quadStep ch inp s
  return (s.setQd ch r.1, respRot r.2)

/-- QD_STEP (R150). -/
def execQdStep (ch : Chan) (inp : BitVec 16) (s : State) : Host.Outcome State Fault Refusal :=
  complete s (qdStepBody ch inp s)

/-- QD_ANGLE (R155): a decode step, then the angle of the counter after it. -/
def qdAngleBody (ch : Chan) (inp : BitVec 16) (s : State) : Except Stop (State × Word) := do
  let r ← quadStep ch inp s
  if r.1.detents = 0 then .error (.fault .zeroDetents)
  else return (s.setQd ch r.1, respAngle (angleOf r.1.pos r.1.detents) r.2)

/-- QD_ANGLE (R155). -/
def execQdAngle (ch : Chan) (inp : BitVec 16) (s : State) : Host.Outcome State Fault Refusal :=
  complete s (qdAngleBody ch inp s)

end Sys2Proof.Machine
end

