-- ==== Sys2Proof/Machine/Dispatch.lean ====
section
/-! DEFINITION. One command executed: one arm per row of the opcode table (R82). -/

namespace Sys2Proof.Machine

def exec (i : Instr) (s : State) : Host.Outcome State Fault Refusal :=
  match i with
  | .nop => Sys2Proof.Machine.execNop s
  | .dbStep ch raw => Sys2Proof.Machine.execDbStep ch raw s
  | .qdStep ch inp => Sys2Proof.Machine.execQdStep ch inp s
  | .qdAngle ch inp => Sys2Proof.Machine.execQdAngle ch inp s
  | .classify b sample => Sys2Proof.Machine.execClassify b sample s
  | .joyClassify x y => Sys2Proof.Machine.execJoyClassify x y s
  | .cfgRead addr => Sys2Proof.Machine.execCfgRead addr s
  | .cfgWrite addr data => Sys2Proof.Machine.execCfgWrite addr data s

end Sys2Proof.Machine
end

