-- ==== Sys2Proof/Machine/Command.lean ====
section
/-! DEFINITION. One command from the port: decoding and execution (R11, R94), and how an input comes to the port. -/

namespace Sys2Proof.Machine

/-- The error of a word that is no command (R91, R92, R221). -/
def decodeErr : DecodeError → ErrCode
  | .illegalOpcode => .illegalOpcode
  | .reservedBits => .reservedBits

/-- One command (R11): `now` is the input's value, the words are decoded (R94), and the instruction is executed, or
its decoding error raised. -/
def runCommand (cmd data : Word) (now : Time) (s : State) : Host.Outcome State Fault Refusal :=
  match decode cmd data with
  | .ok i => exec i { s with now := now }
  | .error e => .next (raise (decodeErr e) { s with now := now })

/-- The host presents an input before all those already waiting. -/
def present (x : Input) (s : State) : State := { s with inputs := x :: s.inputs }

/-- The command whose words are the bits w: CMD in bits 31..0, DATA in bits 63..32, at the clock the state holds. -/
def commandOfBits (nbits w : Nat) (now : Time) : Input :=
  let bits := w % 2 ^ nbits
  .command (BitVec.ofNat 32 bits) (BitVec.ofNat 32 (bits / 2 ^ 32)) now

end Sys2Proof.Machine
end

