-- ==== Sys2Proof/Machine/Step.lean ====
section
/-! DEFINITION. One step (R11): the next input of the host is taken and acted on; with none the block waits. -/

namespace Sys2Proof.Machine

/-- One step. A command is executed (R11), RST resets (R260), and with nothing presented the block waits (R250). -/
def step (s : State) : Host.Outcome State Fault Refusal :=
  match s.inputs with
  | [] => .next (waitForCommand s)
  | .reset :: rest => .next (applyReset { s with inputs := rest })
  | .command cmd data now :: rest => runCommand cmd data now { s with inputs := rest }

/-- s with the command of the bits w presented next (log 21): the very next step runs it. -/
def State.withFetchWord (s : State) (nbits w : Nat) : State := present (commandOfBits nbits w s.now) s

end Sys2Proof.Machine
end

