-- ==== Sys2Proof/Machine/HostSide.lean ====
section
/-! DEFINITION. The host's side of the interface: the caller-facing operations of R246, each a composition of one
command and a table lookup, and the pseudo-instructions of R98. -/

namespace Sys2Proof.Machine

/-- NO_KEY (R8). -/
def noKey : Nat := 0

/-- keymap (R8), NO_KEY for the sentinel raw code (R246). -/
def keymapOf (p : Params) (c : Code) : Nat := if c = noneRaw then noKey else p.keymap.getD c.toNat noKey

/-- What `poll` returns for DB_STEP's response (R246). -/
def pollSymbol (p : Params) (r : Response) : Nat :=
  if r.rerr = 0 ∧ r.resp.getLsbD 31 then keymapOf p (r.resp.extractLsb' 0 8) else noKey

/-- What `poll_rotation` returns for QD_STEP's response (R246). -/
def rotationSymbol (p : Params) (r : Response) : Nat :=
  if r.rerr ≠ 0 ∨ r.resp.extractLsb' 0 2 = 0b00 then noKey
  else if r.resp.extractLsb' 0 2 = 0b01 then p.rotmapUp else p.rotmapDown

/-- What `angle` returns for QD_ANGLE's response (R246). -/
def angleResult (r : Response) : Nat := (r.resp.extractLsb' 16 16).toNat

/-- A command and the host's reading of its response. -/
def hostCall (i : Instr) (s : State) (f : Response → Nat) : Host.Outcome (State × Nat) Fault Refusal :=
  match exec i s with
  | .next t =>
    match t.response with
    | some r => .next (t, f r)
    | none => .next (t, noKey)
  | .fault e => .fault e
  | .refused e => .refused e

/-- `poll(ch, raw)` (R246), the pseudo-instruction POLL (R98). -/
def poll (ch : Chan) (raw : Code) (s : State) : Host.Outcome (State × Nat) Fault Refusal :=
  hostCall (.dbStep ch raw) s (pollSymbol s.params)

/-- `poll_rotation(ch, in)` (R246), the pseudo-instruction POLL_ROT (R98). -/
def pollRotation (ch : Chan) (inp : BitVec 16) (s : State) : Host.Outcome (State × Nat) Fault Refusal :=
  hostCall (.qdStep ch inp) s (rotationSymbol s.params)

/-- `angle(ch, in)` (R246), the pseudo-instruction ANGLE (R98). -/
def angle (ch : Chan) (inp : BitVec 16) (s : State) : Host.Outcome (State × Nat) Fault Refusal :=
  hostCall (.qdAngle ch inp) s angleResult

/-- SET_TIMING deb, hold, rep (R98). -/
def setTiming (deb hold rep : Word) : List Instr :=
  [.cfgWrite 0x001 deb, .cfgWrite 0x000 hold, .cfgWrite 0x002 rep]

/-- The reference writes of SET_BANK from slot i on. -/
def setRefs (b : Chan) : Nat → List Word → List Instr
  | _, [] => []
  | i, r :: rs => .cfgWrite (BitVec.ofNat 12 (0x400 + 32 * b.toNat + 16 + i)) r :: setRefs b (i + 1) rs

/-- SET_BANK b, tol, r0, ..., rk (R98). -/
def setBankProgram (b : Chan) (tol : Word) (rs : List Word) : List Instr :=
  .cfgWrite (BitVec.ofNat 12 (0x400 + 32 * b.toNat + 1)) tol :: setRefs b 0 rs
    ++ [.cfgWrite (BitVec.ofNat 12 (0x400 + 32 * b.toNat)) (BitVec.ofNat 32 rs.length)]

end Sys2Proof.Machine
end

