-- ==== Sys2Proof/Safety.lean ====
section
/-! DEFINITION. What the spec says of every state at a step boundary (R25, R26, R29, R37, R41, R206), as one
invariant, and the words in which statements about commands and runs are made. -/

namespace Sys2Proof.Machine

/-! ## The invariant -/

/-- A debounce context at a step boundary: never Pressed (R25); Up iff nothing is tracked, and otherwise the tracked
code is below N_CODES (R26). -/
abbrev DbCtx.ok (p : Params) (c : DbCtx) : Prop :=
  c.state ≠ .pressed ∧ (c.state = .up ↔ c.tracked = noneRaw) ∧ (c.state ≠ .up → c.tracked.toNat < p.nCodes)

/-- A quadrature channel at a step boundary: seq in 1..7 (R29), at least one detent (R41), a bank that exists (R206). -/
abbrev QdChan.ok (p : Params) (q : QdChan) : Prop :=
  (1 ≤ q.seq.toNat ∧ q.seq.toNat ≤ 7) ∧ q.detents ≠ 0 ∧ q.ctrl.bank.toNat < p.nBank

/-- A bank: its tolerance and references have no bit at or above SAMPLE_W (R44, R45). -/
abbrev Bank.ok (p : Params) (k : Bank) : Prop :=
  k.tol.toNat < 2 ^ p.sampleW ∧ ∀ i : Fin 16, (k.refs[i.val]'i.isLt).toNat < 2 ^ p.sampleW

/-- JOY_CTRL names banks that exist (R38, R206). -/
abbrev JoyCtrl.ok (p : Params) (j : JoyCtrl) : Prop := j.bankX.toNat < p.nBank ∧ j.bankY.toNat < p.nBank

/-- What holds of every state of a well-formed instance at a step boundary. -/
structure Invariant (s : State) : Prop where
  params : s.params.wf = true
  dbCount : s.db.length = s.params.nDb
  qdCount : s.qd.length = s.params.nQd
  bankCount : s.bank.length = s.params.nBank
  db : ∀ c ∈ s.db, c.ok s.params
  qd : ∀ q ∈ s.qd, q.ok s.params
  bank : ∀ k ∈ s.bank, k.ok s.params
  joy : s.joyCtrl.ok s.params
  err : s.err &&& ~~~errMask = 0

/-! ## How a command ended -/

/-- RERR is 0. -/
def State.completed (s : State) : Prop := ∃ v, s.response = some ⟨v, 0⟩

/-- s after a command that raised error number k on it and did nothing else (R223, R224). -/
def State.afterError (s : State) (k : Nat) : State :=
  { s with err := s.err ||| BitVec.ofNat 32 (2 ^ k), response := some ⟨0, BitVec.ofNat 4 k⟩ }

/-- s after a command that wrote nothing and answered v. -/
def State.answering (s : State) (v : Word) : State := { s with response := some ⟨v, 0⟩ }

/-- The error numbers a command word with opcode op can end with (the table of R222). -/
def codesOf (op : Nat) : List Nat :=
  match op with
  | 0 => [2]
  | 1 => [2, 3, 4]
  | 2 => [2, 3, 4, 8]
  | 3 => [2, 3, 4, 8]
  | 4 => [2, 3, 4]
  | 5 => [2, 4]
  | 6 => [2, 5]
  | 7 => [2, 5, 6, 7]
  | _ => [1]

/-- A reserved bit of the command word is set: the "0" bits of the formats of R83 to R88. -/
def reservedSet (cmd : Word) : Prop :=
  (opField cmd = 0 ∧ cmd.extractLsb' 0 28 ≠ 0)
    ∨ (opField cmd = 1 ∧ cmd.extractLsb' 8 16 ≠ 0)
    ∨ ((opField cmd = 2 ∨ opField cmd = 3 ∨ opField cmd = 4) ∧ cmd.extractLsb' 16 8 ≠ 0)
    ∨ (opField cmd = 5 ∧ cmd.extractLsb' 24 4 ≠ 0)
    ∨ ((opField cmd = 6 ∨ opField cmd = 7) ∧ cmd.extractLsb' 12 16 ≠ 0)

/-! ## The debounce unit -/

/-- RESP of a DB_STEP that emits c. -/
def emits (c : Code) : Word := 0x80000000#32 + BitVec.ofNat 32 c.toNat

/-- RESP of a DB_STEP that emits nothing. -/
def quiet : Word := 0x000000FF

/-- A DB_STEP on channel ch with raw code raw passes its checks, and c is the channel's context (R120). -/
def dbReady (s : State) (ch : Chan) (raw : Code) (c : DbCtx) : Prop :=
  ch.toNat < s.params.nDb ∧ (raw = noneRaw ∨ raw.toNat < s.params.nCodes) ∧ s.db[ch.toNat]? = some c

/-- s after a DB_STEP that left c in channel ch and answered v. -/
def State.dbAfter (s : State) (ch : Chan) (c : DbCtx) (v : Word) : State :=
  { s with db := s.db.set ch.toNat c, response := some ⟨v, 0⟩ }

/-- DB_STEPs of one channel, one after another, each at its own time; the responses oldest first. -/
def pollAll (ch : Chan) : List (Code × Time) → State → Host.Outcome (State × List (Option Response)) Fault Refusal
  | [], s => .next (s, [])
  | (raw, t) :: rest, s =>
    match exec (.dbStep ch raw) { s with now := t } with
    | .next u =>
      match pollAll ch rest u with
      | .next (v, rs) => .next (v, u.response :: rs)
      | .fault f => .fault f
      | .refused r => .refused r
    | .fault f => .fault f
    | .refused r => .refused r

/-- Commands executed one after another at one time; the responses oldest first. -/
def execAll : List Instr → State → Host.Outcome (State × List (Option Response)) Fault Refusal
  | [], s => .next (s, [])
  | i :: is, s =>
    match exec i s with
    | .next u =>
      match execAll is u with
      | .next (v, rs) => .next (v, u.response :: rs)
      | .fault f => .fault f
      | .refused r => .refused r
    | .fault f => .fault f
    | .refused r => .refused r

/-- The same state with other DASH_THRESHOLD and DASH_TIME. -/
def State.withDash (s : State) (a b : Time) : State :=
  { s with timing := { s.timing with dashThreshold := a, dashTime := b } }

/-! ## The classifier -/

/-- Reference i of the bank is in use and within tolerance of the sample x (R180, R181). -/
def matchesAt (cmp : TolCmp) (k : Bank) (x : Nat) (i : Fin 16) : Prop :=
  i.val < k.count.val ∧
    match cmp with
    | .le => ((x : Int) - ((k.refs[i.val]'i.isLt).toNat : Int)).natAbs ≤ k.tol.toNat
    | .lt => ((x : Int) - ((k.refs[i.val]'i.isLt).toNat : Int)).natAbs < k.tol.toNat

/-- i is the first reference in use within tolerance of x. -/
def firstMatch (cmp : TolCmp) (k : Bank) (x : Nat) (i : Fin 16) : Prop :=
  matchesAt cmp k x i ∧ ∀ j : Fin 16, j < i → ¬ matchesAt cmp k x j

/-- No reference in use is within tolerance of x. -/
def noMatch (cmp : TolCmp) (k : Bank) (x : Nat) : Prop := ∀ i : Fin 16, ¬ matchesAt cmp k x i

/-! ## The quadrature decoder -/

/-- The table of R161: for each index and reading the new index, the change to the counter, and ROT. -/
def decodeCell (seq r : Nat) : Nat × Int × Nat :=
  match seq, r with
  | 1, 0 => (2, 0, 0)
  | 1, 3 => (4, -1, 2)
  | 2, 1 => (3, 0, 0)
  | 2, 2 => (1, 0, 0)
  | 3, 0 => (2, 0, 0)
  | 3, 3 => (4, 0, 0)
  | 4, 1 => (3, 0, 0)
  | 4, 2 => (5, 0, 0)
  | 5, 0 => (6, 0, 0)
  | 5, 3 => (4, 0, 0)
  | 6, 1 => (7, 0, 0)
  | 6, 2 => (5, 0, 0)
  | 7, 0 => (6, 0, 0)
  | 7, 3 => (4, 1, 1)
  | s, _ => (s, 0, 0)

/-- The channel after the cell of R161 for the reading r, the counter wrapping at 32 bits (R154). -/
def QdChan.afterReading (q : QdChan) (r : BitVec 2) : QdChan :=
  { q with
    seq := BitVec.ofNat 4 (decodeCell q.seq.toNat r.toNat).1
    pos := BitVec.ofInt 32 (q.pos.toInt + (decodeCell q.seq.toNat r.toNat).2.1) }

/-- ROT of the cell of R161. -/
def QdChan.rotOf (q : QdChan) (r : BitVec 2) : Nat := (decodeCell q.seq.toNat r.toNat).2.2

/-- s after a QD_STEP or QD_ANGLE that left q in channel ch and answered v. -/
def State.qdAfter (s : State) (ch : Chan) (q : QdChan) (v : Word) : State :=
  { s with qd := s.qd.set ch.toNat q, response := some ⟨v, 0⟩ }

/-- q is the channel ch that a QD_STEP or QD_ANGLE works on, with an index the table covers (R29). -/
def qdReady (s : State) (ch : Chan) (q : QdChan) : Prop :=
  ch.toNat < s.params.nQd ∧ s.qd[ch.toNat]? = some q ∧ 1 ≤ q.seq.toNat ∧ q.seq.toNat ≤ 7

/-- The channel is in digital mode and IN holds a 2-bit reading, which is r after INVERT (R151). -/
def digitalInput (q : QdChan) (inp : BitVec 16) (r : BitVec 2) : Prop :=
  q.ctrl.mode = .digital ∧ inp.toNat < 4 ∧ r = (if q.ctrl.invert then ~~~(inp.setWidth 2) else inp.setWidth 2)

/-- The channel is in analog mode, IN is a sample, and k is the channel's bank, with its four references (R152). -/
def analogInput (s : State) (q : QdChan) (inp : BitVec 16) (k : Bank) : Prop :=
  q.ctrl.mode = .analog ∧ inp.toNat < 2 ^ s.params.sampleW ∧ s.bank[q.ctrl.bank.toNat]? = some k ∧ k.count.val = 4

/-- r is not a neighbour of the channel's phase: the decode step takes it for noise (R157). -/
def QdChan.rejects (q : QdChan) (r : BitVec 2) : Prop :=
  r ≠ seqT (q.seq.toNat + 1) ∧ r ≠ seqT (q.seq.toNat - 1)

/-! ## The register space -/

/-- The mapped addresses, by the rows of the table of R63. -/
def mapped (p : Params) (a : Nat) : Prop :=
  a ≤ 4 ∨ a = 8 ∨ a = 9
    ∨ (∃ ch k, ch < p.nDb ∧ k < 3 ∧ a = 0x100 + 4 * ch + k)
    ∨ (∃ ch k, ch < p.nQd ∧ k < 5 ∧ a = 0x200 + 8 * ch + k)
    ∨ (∃ b k, b < p.nBank ∧ (k < 2 ∨ (16 ≤ k ∧ k < 32)) ∧ a = 0x400 + 32 * b + k)

/-- The numbers of channels and banks are at most those the map has windows for (R6). -/
def countsOk (p : Params) : Prop := p.nDb ≤ 16 ∧ p.nQd ≤ 16 ∧ p.nBank ≤ 16

/-- s after a CFG_READ that answered v. -/
def answersRead (a : Nat) (s : State) (v : Nat) : Prop :=
  exec (.cfgRead (BitVec.ofNat 12 a)) s = .next (s.answering (BitVec.ofNat 32 v))

/-- The CFG_WRITE of v to address a takes s to t with RESP 0 and RERR 0. -/
def writes (a : Nat) (v : Word) (s t : State) : Prop :=
  exec (.cfgWrite (BitVec.ofNat 12 a) v) s = .next (t.answering 0)

/-- The CFG_WRITE of v to address a raises error number k and changes nothing else. -/
def writeRaises (a : Nat) (v : Word) (s : State) (k : Nat) : Prop :=
  exec (.cfgWrite (BitVec.ofNat 12 a) v) s = .next (s.afterError k)

end Sys2Proof.Machine
end

