-- ==== Sys2Proof/Certificates/Slice0/Obligations.lean ====
section
/-! DEFINITION. The statements for the provers. -/

open Sys2Proof Sys2Proof.Machine

/-! ## Encoding -/

/-- Example command words of the rules and of 95_test_vectors.md decode to the commands they are written for. -/
def Obligations.ExampleWordsDecode : Prop :=
  decode 0x00000000 0 = .ok .nop
    ∧ decode 0x10000003 0 = .ok (.dbStep 0 3)
    ∧ decode 0x20000262 0 = .ok (.qdStep 0 610)
    ∧ decode 0x30000003 0 = .ok (.qdAngle 0 3)
    ∧ decode 0x410002BC 0 = .ok (.classify 1 700)
    ∧ decode 0x501FE3E8 0 = .ok (.joyClassify 510 1000)
    ∧ decode 0x60000101 0 = .ok (.cfgRead 0x101)
    ∧ decode 0x70000001 0x19 = .ok (.cfgWrite 0x001 25)

/-- Decoding the two words of any command gives the command back, at every value of every operand; and a command word
that decodes to i is i's own command word, with i's own DATA where i reads DATA (R83 to R90, R93, R97). -/
def Obligations.DecodeEncodeRoundTrip : Prop :=
  (∀ i : Instr, decode (encodeCmd i) (encodeData i) = .ok i)
  ∧ ∀ cmd data i, decode cmd data = .ok i →
      encodeCmd i = cmd ∧ ((∃ a d, i = .cfgWrite a d) → encodeData i = data)

/-- Every command word matches exactly one row under its mask and decodes to an instruction of that row, or matches
none and is an illegal opcode or has a reserved bit set: R93, an inference the spec marks as its own ("derived: from
rules R82, R91 and R92"). -/
def Obligations.EveryWordIsOneRowOrAnError : Prop :=
  ∀ cmd data : Word,
    (∀ r ∈ opcodeMap, cmd &&& r.mask = r.value →
      (∀ r' ∈ opcodeMap, cmd &&& r'.mask = r'.value → r' = r) ∧ ∃ i, decode cmd data = .ok i ∧ i.row = r)
    ∧ ((∀ r ∈ opcodeMap, cmd &&& r.mask ≠ r.value) →
      (8 ≤ (opField cmd).toNat → decode cmd data = .error .illegalOpcode)
      ∧ ((opField cmd).toNat ≤ 7 → decode cmd data = .error .reservedBits))

/-- The addresses of R63 and its decoding agree: a mapped address decodes to a register whose address it is, and
every register of a channel or bank that exists is at its address; every other address decodes to nothing. -/
def Obligations.RegisterMapIsOneToOne : Prop :=
  ∀ p : Params, countsOk p →
    (∀ a r, decodeAddr p a = some r → r.addr = a ∧ decodeAddr p r.addr = some r)
    ∧ (∀ a : Addr, (∃ r, decodeAddr p a = some r) ↔ mapped p a.toNat)

/-! ## One step -/

/-- A command whose words decode to i is executed as i, on the state that has taken the command from the port and
shows its `now` (R11, R22, R94). -/
def Obligations.StepRunsTheDecodedCommand : Prop :=
  ∀ s cmd data now rest i, s.inputs = .command cmd data now :: rest → decode cmd data = .ok i →
    step s = exec i { s with now := now, inputs := rest }

/-- R92: an opcode 0x8 to 0xF raises ILLEGAL_OPCODE, whatever the other bits. R91: with an opcode 0x0 to 0x7, a
reserved bit that is set raises RESERVED_BITS. Neither changes anything else. -/
def Obligations.UndecodableWordsRaise : Prop :=
  ∀ s cmd data now rest, s.inputs = .command cmd data now :: rest →
    (8 ≤ (opField cmd).toNat → step s = .next (State.afterError { s with now := now, inputs := rest } 1))
    ∧ (reservedSet cmd → step s = .next (State.afterError { s with now := now, inputs := rest } 2))

/-- R89: DATA has no effect on a command other than CFG_WRITE. -/
def Obligations.DataMattersToCfgWriteAlone : Prop :=
  ∀ (s : State) cmd d₁ d₂ now rest, opField cmd ≠ 7 →
    step { s with inputs := .command cmd d₁ now :: rest } = step { s with inputs := .command cmd d₂ now :: rest }

/-- The RST input takes every piece of state to its value after reset and has no response (R260); the instance, the
clock and the inputs still to come stay (the model's own fields, log 7). -/
def Obligations.ResetInputRestoresEverything : Prop :=
  ∀ s rest, s.inputs = .reset :: rest →
    ∃ t, step s = .next t
      ∧ t = { State.resetOf s.params with now := s.now, inputs := rest } ∧ t.response = none

/-! ## Reset -/

/-- R49 and R260: the RST input, for every well-formed instance, leaves every context at rest, ERR 0, and every
configuration register, as CFG_READ reads it, at its construction value; it has no response. -/
def Obligations.ResetValues : Prop :=
  ∀ s t rest, s.inputs = .reset :: rest → s.params.wf = true → step s = .next t →
    let p := s.params
    t.response = none
    ∧ (∀ ch : Nat, ch < p.nDb → t.db[ch]? = some ⟨.up, 0xFF, 0⟩)
    ∧ (∀ ch : Chan, ch.toNat < p.nQd →
        (∃ q, t.qd[ch.toNat]? = some q ∧ q.seq = 4 ∧ q.pos = 0 ∧ q.prev = 3)
        ∧ (Reg.qdCtrl ch).read t = .ok (p.rstQdCtrl.getD ch.toNat 0)
        ∧ (Reg.qdDetents ch).read t = .ok (p.rstQdDetents.getD ch.toNat 0))
    ∧ (∀ b : Chan, b.toNat < p.nBank →
        (Reg.bankCount b).read t = .ok (p.rstBankCount.getD b.toNat 0)
        ∧ (Reg.bankTol b).read t = .ok (p.rstBankTol.getD b.toNat 0)
        ∧ ∀ i : BitVec 4, (Reg.bankRef b i).read t = .ok ((p.rstBankRef.getD b.toNat []).getD i.toNat 0))
    ∧ t.err = 0
    ∧ Reg.joyCtrl.read t = .ok p.rstJoyCtrl
    ∧ t.timing = ⟨p.rstHoldTime, p.rstDebounceTime, p.rstRepeatTime, p.rstDashThreshold, p.rstDashTime⟩

/-! ## The invariant -/

/-- The invariant holds in the state the model starts from. -/
def Obligations.StartMeetsTheInvariant : Prop := Invariant State.reset

/-- The invariant holds after the reset of every well-formed instance. -/
def Obligations.EveryResetMeetsTheInvariant : Prop := ∀ p : Params, p.wf = true → Invariant (State.resetOf p)

/-- Every step keeps the invariant: contexts legal (R25, R26, R29), registers within their checks (R206), ERR's
reserved bits 0 (R37), the instance well-formed; and no step changes the instance. -/
def Obligations.EveryStepKeepsTheInvariant : Prop :=
  ∀ s t, Invariant s → step s = .next t → Invariant t ∧ t.params = s.params

/-- Under the invariant no input stops the block: every step answers a next state (R250, R220, R227). -/
def Obligations.NoInputStopsTheBlock : Prop := ∀ s, Invariant s → ∃ t, step s = .next t

/-- Every run of every well-formed instance from reset, on any inputs, goes on and keeps the invariant. -/
def Obligations.EveryRunFromResetGoesOn : Prop :=
  ∀ (p : Params) (inputs : List Input) (k : Nat), p.wf = true →
    ∃ t, Host.Core.run core k { State.resetOf p with inputs := inputs } = .next t ∧ Invariant t

/-! ## Errors -/

/-- R223: a command that ends with RERR not 0 has RESP 0, and changed nothing but ERR, which gained one bit; the
ports `now` and inputs are those of the step. -/
def Obligations.ErrorsArePrecise : Prop :=
  ∀ s t cmd data now rest v r, s.inputs = .command cmd data now :: rest → step s = .next t →
    t.response = some ⟨v, r⟩ → r ≠ 0 →
    ∃ k, 1 ≤ k ∧ k ≤ 8 ∧ t = State.afterError { s with now := now, inputs := rest } k ∧ v = 0 ∧ r = BitVec.ofNat 4 k

/-- The error a command word can end with is one its opcode's row of the table lists, and each listed error is raised
by some command word with that opcode in some state that meets the invariant: R222, an inference the spec marks as its
own ("derived: from rule R221 and the command rules"). -/
def Obligations.ErrorCodesOfEachCommand : Prop :=
  (∀ s t cmd data now rest, s.inputs = .command cmd data now :: rest → step s = .next t →
    ∃ v r, t.response = some ⟨v, r⟩ ∧ (r = 0 ∨ r.toNat ∈ codesOf (opField cmd).toNat))
  ∧ (∀ (op : BitVec 4) (k : Nat), k ∈ codesOf op.toNat →
    ∃ s cmd data now rest t, Invariant s ∧ opField cmd = op ∧ s.inputs = .command cmd data now :: rest ∧ step s = .next t
      ∧ t.response = some ⟨0, BitVec.ofNat 4 k⟩)

/-- R224: a command that raises code k sets ERR bit k and leaves the others; one that completes leaves ERR; RST clears
it. -/
def Obligations.ErrIsSticky : Prop :=
  (∀ s t cmd data now rest, s.inputs = .command cmd data now :: rest → step s = .next t →
    ∃ v r, t.response = some ⟨v, r⟩ ∧ t.err = (if r = 0 then s.err else s.err ||| BitVec.ofNat 32 (2 ^ r.toNat)))
  ∧ (∀ s t rest, s.inputs = .reset :: rest → step s = .next t → t.err = 0)

/-! ## DB_STEP -/

/-- R123, state Up. -/
def Obligations.DbStepInUp : Prop :=
  ∀ s ch raw c, dbReady s ch raw c → c.state = .up →
    (raw = noneRaw → exec (.dbStep ch raw) s = .next (s.dbAfter ch c quiet))
    ∧ (raw ≠ noneRaw → exec (.dbStep ch raw) s = .next (s.dbAfter ch ⟨.debounce, raw, s.now⟩ quiet))

/-- R124 with the fall-through of R125, state Debounce; elapsed time is modulo 2^32 (R121). -/
def Obligations.DbStepInDebounce : Prop :=
  ∀ s ch raw c, dbReady s ch raw c → c.state = .debounce →
    (raw = noneRaw → exec (.dbStep ch raw) s = .next (s.dbAfter ch ⟨.up, noneRaw, s.now⟩ quiet))
    ∧ (raw ≠ noneRaw → raw ≠ c.tracked →
        exec (.dbStep ch raw) s = .next (s.dbAfter ch ⟨.debounce, raw, s.now⟩ quiet))
    ∧ (raw ≠ noneRaw → raw = c.tracked → s.timing.debounceTime.toNat ≤ (s.now - c.t0).toNat →
        exec (.dbStep ch raw) s = .next (s.dbAfter ch ⟨.down, c.tracked, s.now⟩ (emits c.tracked)))
    ∧ (raw ≠ noneRaw → raw = c.tracked → (s.now - c.t0).toNat < s.timing.debounceTime.toNat →
        exec (.dbStep ch raw) s = .next (s.dbAfter ch c quiet))

/-- R125, state Pressed, which no step boundary has: the three branches the rule gives. -/
def Obligations.DbStepInPressed : Prop :=
  ∀ s ch raw c, dbReady s ch raw c → c.state = .pressed →
    (raw ≠ noneRaw → raw = c.tracked → exec (.dbStep ch raw) s = .next (s.dbAfter ch ⟨.down, c.tracked, s.now⟩ quiet))
    ∧ (raw ≠ noneRaw → raw ≠ c.tracked → exec (.dbStep ch raw) s = .next (s.dbAfter ch ⟨.debounce, raw, s.now⟩ quiet))
    ∧ (raw = noneRaw → exec (.dbStep ch raw) s = .next (s.dbAfter ch ⟨.released, c.tracked, s.now⟩ quiet))

/-- R126, state Down. -/
def Obligations.DbStepInDown : Prop :=
  ∀ s ch raw c, dbReady s ch raw c → c.state = .down →
    ((raw = noneRaw ∨ raw ≠ c.tracked) →
        exec (.dbStep ch raw) s = .next (s.dbAfter ch ⟨.released, c.tracked, s.now⟩ quiet))
    ∧ (raw ≠ noneRaw → raw = c.tracked → s.timing.holdTime.toNat ≤ (s.now - c.t0).toNat →
        exec (.dbStep ch raw) s = .next (s.dbAfter ch ⟨.held, c.tracked, s.now⟩ (emits c.tracked)))
    ∧ (raw ≠ noneRaw → raw = c.tracked → (s.now - c.t0).toNat < s.timing.holdTime.toNat →
        exec (.dbStep ch raw) s = .next (s.dbAfter ch c quiet))

/-- R127, state Released. -/
def Obligations.DbStepInReleased : Prop :=
  ∀ s ch raw c, dbReady s ch raw c → c.state = .released →
    (raw = noneRaw → exec (.dbStep ch raw) s = .next (s.dbAfter ch ⟨.up, noneRaw, s.now⟩ quiet))
    ∧ (raw ≠ noneRaw → exec (.dbStep ch raw) s = .next (s.dbAfter ch ⟨.debounce, raw, s.now⟩ quiet))

/-- R128, state Held. -/
def Obligations.DbStepInHeld : Prop :=
  ∀ s ch raw c, dbReady s ch raw c → c.state = .held →
    ((raw = noneRaw ∨ raw ≠ c.tracked) →
        exec (.dbStep ch raw) s = .next (s.dbAfter ch ⟨.released, c.tracked, s.now⟩ (emits c.tracked)))
    ∧ (raw ≠ noneRaw → raw = c.tracked → s.timing.repeatTime.toNat ≤ (s.now - c.t0).toNat →
        exec (.dbStep ch raw) s = .next (s.dbAfter ch ⟨.held, c.tracked, s.now⟩ (emits c.tracked)))
    ∧ (raw ≠ noneRaw → raw = c.tracked → (s.now - c.t0).toNat < s.timing.repeatTime.toNat →
        exec (.dbStep ch raw) s = .next (s.dbAfter ch c quiet))

/-- The errors of DB_STEP, the channel before the raw code (R120, R225). -/
def Obligations.DbStepErrors : Prop :=
  ∀ s ch (raw : Code),
    (s.params.nDb ≤ ch.toNat → exec (.dbStep ch raw) s = .next (s.afterError 3))
    ∧ (ch.toNat < s.params.nDb → raw ≠ noneRaw → s.params.nCodes ≤ raw.toNat →
        exec (.dbStep ch raw) s = .next (s.afterError 4))

/-- A DB_STEP that passes its checks emits exactly in the four cases of the table of R134, what it emits is the code
tracked at the start of the step (R130), and the state after is the table's. R134 is an inference the spec marks as its
own ("derived: from rules R123 to R128"). -/
def Obligations.TheFourEmissions : Prop :=
  ∀ s t ch raw c, dbReady s ch raw c → exec (.dbStep ch raw) s = .next t →
    let el := (s.now - c.t0).toNat
    let matching := raw ≠ noneRaw ∧ raw = c.tracked
    let confirm := c.state = .debounce ∧ matching ∧ s.timing.debounceTime.toNat ≤ el
    let firstRepeat := c.state = .down ∧ matching ∧ s.timing.holdTime.toNat ≤ el
    let again := c.state = .held ∧ matching ∧ s.timing.repeatTime.toNat ≤ el
    let release := c.state = .held ∧ ¬ matching
    ∃ v c', t.response = some ⟨v, 0⟩ ∧ t.db[ch.toNat]? = some c'
      ∧ (v.getLsbD 31 = true ↔ confirm ∨ firstRepeat ∨ again ∨ release)
      ∧ (v.getLsbD 31 = true → v = emits c.tracked) ∧ (v.getLsbD 31 = false → v = quiet)
      ∧ (confirm → c'.state = .down) ∧ (firstRepeat → c'.state = .held)
      ∧ (again → c'.state = .held) ∧ (release → c'.state = .released)

/-- R129: t0 is set to now exactly when the state changes, when Debounce retracks, and when Held repeats; otherwise it
is unchanged. -/
def Obligations.TimestampRule : Prop :=
  ∀ s t ch raw c c' v, dbReady s ch raw c → exec (.dbStep ch raw) s = .next t →
    t.db[ch.toNat]? = some c' → t.response = some ⟨v, 0⟩ →
    ((c'.state ≠ c.state ∨ (c.state = .debounce ∧ raw ≠ noneRaw ∧ raw ≠ c.tracked)
        ∨ (c.state = .held ∧ c'.state = .held ∧ v ≠ quiet)) → c'.t0 = s.now)
    ∧ (¬ (c'.state ≠ c.state ∨ (c.state = .debounce ∧ raw ≠ noneRaw ∧ raw ≠ c.tracked)
        ∨ (c.state = .held ∧ c'.state = .held ∧ v ≠ quiet)) → c'.t0 = c.t0)

/-- DB_STEP writes its own channel's context and nothing else, but for ERR when it raises (R234); the response is
its output. -/
def Obligations.DbStepWritesItsChannelOnly : Prop :=
  ∀ s t ch raw, exec (.dbStep ch raw) s = .next t →
    t = { s with db := t.db, err := t.err, response := t.response }
    ∧ t.db.length = s.db.length ∧ (∀ k : Nat, k ≠ ch.toNat → t.db[k]? = s.db[k]?)
    ∧ (t.completed → t.err = s.err) ∧ (¬ t.completed → t.db = s.db)

/-- DB_STEP on ch reads only DB[ch], now, the three live durations and the instance (R234): two states that agree on
those give the same response and leave the same context. -/
def Obligations.DbStepReadsItsChannelOnly : Prop :=
  ∀ s u t ch raw, u.params = s.params → u.db[ch.toNat]? = s.db[ch.toNat]? → u.now = s.now →
    u.timing.debounceTime = s.timing.debounceTime → u.timing.holdTime = s.timing.holdTime →
    u.timing.repeatTime = s.timing.repeatTime → exec (.dbStep ch raw) s = .next t →
    ∃ v, exec (.dbStep ch raw) u = .next v ∧ v.response = t.response ∧ v.db[ch.toNat]? = t.db[ch.toNat]?

/-- DASH_THRESHOLD and DASH_TIME are inert (R131, R34, R35): a command other than CFG_READ and CFG_WRITE does the same
whatever they hold. -/
def Obligations.DashRegistersAreInert : Prop :=
  ∀ s t i a b, (∀ x, i ≠ .cfgRead x) → (∀ x d, i ≠ .cfgWrite x d) → exec i s = .next t →
    exec i (s.withDash a b) = .next (t.withDash a b)

/-- Losing the held code emits it and leaves Released; the next DB_STEP on the channel leaves Released for Up or
Debounce and emits nothing: R137, an inference the spec marks as its own ("derived: from rules R127 and R128"). -/
def Obligations.HeldReleaseHappensOnce : Prop :=
  ∀ s ch raw c, dbReady s ch raw c → c.state = .held → raw ≠ c.tracked →
    ∃ t, exec (.dbStep ch raw) s = .next t ∧ t.response = some ⟨emits c.tracked, 0⟩
      ∧ t.db[ch.toNat]? = some ⟨.released, c.tracked, s.now⟩
      ∧ ∀ (raw' : Code) (later : Time), (raw' = noneRaw ∨ raw'.toNat < s.params.nCodes) →
          exec (.dbStep ch raw') { t with now := later } = .next
            (State.dbAfter { t with now := later } ch
              (if raw' = noneRaw then ⟨.up, noneRaw, later⟩ else ⟨.debounce, raw', later⟩) quiet)

/-- Debounce suppression: a code that entered Debounce at t1 and is seen, at any number of polls, only at times less
than DEBOUNCE_TIME after t1 is not emitted, and the first poll without it drops it. It is the property of W6 and of
R135, an inference the spec marks as its own ("derived: from rules R121, R124, R126, R128"). -/
def Obligations.ShortPressesAreNeverEmitted : Prop :=
  ∀ s ch c (t1 : Time) (times : List Time) (raw : Code) (later : Time),
    dbReady s ch c ⟨.debounce, c, t1⟩ → c ≠ noneRaw →
    (∀ t ∈ times, (t - t1).toNat < s.timing.debounceTime.toNat) →
    raw ≠ c → (raw = noneRaw ∨ raw.toNat < s.params.nCodes) →
    ∃ u rs, pollAll ch (times.map (fun t => (c, t)) ++ [(raw, later)]) s = .next (u, rs)
      ∧ rs.length = times.length + 1 ∧ (∀ r ∈ rs, r = some ⟨quiet, 0⟩)
      ∧ u.db[ch.toNat]? = some (if raw = noneRaw then ⟨.up, noneRaw, later⟩ else ⟨.debounce, raw, later⟩)

/-- Cadence: from Up, with DB_STEP ch, c at every millisecond 0, 1, ..., T, the steps that emit are exactly those at
D, D + H and D + H + k*R, where a duration of 0 acts as 1: R136, an inference the spec marks as its own ("derived: from
rules R123 to R129"). -/
def Obligations.RepeatCadence : Prop :=
  ∀ s ch c x (T : Nat), dbReady s ch c x → x.state = .up → c ≠ noneRaw →
    let D := max 1 s.timing.debounceTime.toNat
    let H := max 1 s.timing.holdTime.toNat
    let R := max 1 s.timing.repeatTime.toNat
    ∃ u rs, pollAll ch ((List.range (T + 1)).map (fun t => (c, BitVec.ofNat 32 t))) s = .next (u, rs)
      ∧ rs.length = T + 1
      ∧ ∀ t, t ≤ T →
        ((t = D ∨ t = D + H ∨ ∃ k, 1 ≤ k ∧ t = D + H + k * R) → rs[t]? = some (some ⟨emits c, 0⟩))
        ∧ (¬ (t = D ∨ t = D + H ∨ ∃ k, 1 ≤ k ∧ t = D + H + k * R) → rs[t]? = some (some ⟨quiet, 0⟩))

/-! ## QD_STEP and QD_ANGLE -/

/-- QD_STEP in digital mode (R151, R153, R154): the cell of R161's table for the reading; `prev` and everything else
stay. R161 is the spec's own inference from R153 and R30 ("The complete decode function"). -/
def Obligations.QdStepDigital : Prop :=
  ∀ s ch inp q r, qdReady s ch q → digitalInput q inp r →
    exec (.qdStep ch inp) s = .next (s.qdAfter ch (q.afterReading r) (BitVec.ofNat 32 (q.rotOf r)))

/-- QD_STEP in analog mode (R152, R153): the first reference within tolerance is the reading and the new `prev`; with
none the reading is `prev`. INVERT plays no part. -/
def Obligations.QdStepAnalog : Prop :=
  ∀ s ch inp q k, qdReady s ch q → analogInput s q inp k →
    (∀ i : Fin 16, firstMatch s.params.tolCmp k inp.toNat i →
      exec (.qdStep ch inp) s = .next (s.qdAfter ch
        (QdChan.afterReading { q with prev := BitVec.ofNat 2 i.val } (BitVec.ofNat 2 i.val))
        (BitVec.ofNat 32 (q.rotOf (BitVec.ofNat 2 i.val)))))
    ∧ (noMatch s.params.tolCmp k inp.toNat →
      exec (.qdStep ch inp) s = .next (s.qdAfter ch (q.afterReading q.prev) (BitVec.ofNat 32 (q.rotOf q.prev))))

/-- QD_ANGLE in digital mode (R155, R156): the step of QD_STEP, and the angle of the counter after it, in 0..d-1 and
congruent to the counter modulo d. -/
def Obligations.QdAngleDigital : Prop :=
  ∀ s ch inp q r, qdReady s ch q → digitalInput q inp r → q.detents ≠ 0 →
    ∃ a : Nat, a < q.detents.toNat ∧ (q.detents.toNat : Int) ∣ (q.afterReading r).pos.toInt - a
      ∧ exec (.qdAngle ch inp) s = .next (s.qdAfter ch (q.afterReading r)
          (BitVec.ofNat 32 (a * 65536 + q.rotOf r)))

/-- QD_ANGLE in analog mode (R152, R155, R156). -/
def Obligations.QdAngleAnalog : Prop :=
  ∀ s ch inp q k, qdReady s ch q → analogInput s q inp k → q.detents ≠ 0 →
    (∀ i : Fin 16, firstMatch s.params.tolCmp k inp.toNat i →
      let q' := QdChan.afterReading { q with prev := BitVec.ofNat 2 i.val } (BitVec.ofNat 2 i.val)
      ∃ a : Nat, a < q.detents.toNat ∧ (q.detents.toNat : Int) ∣ q'.pos.toInt - a
        ∧ exec (.qdAngle ch inp) s = .next (s.qdAfter ch q'
            (BitVec.ofNat 32 (a * 65536 + q.rotOf (BitVec.ofNat 2 i.val)))))
    ∧ (noMatch s.params.tolCmp k inp.toNat →
      ∃ a : Nat, a < q.detents.toNat ∧ (q.detents.toNat : Int) ∣ (q.afterReading q.prev).pos.toInt - a
        ∧ exec (.qdAngle ch inp) s = .next (s.qdAfter ch (q.afterReading q.prev)
            (BitVec.ofNat 32 (a * 65536 + q.rotOf q.prev))))

/-- The errors of QD_STEP and QD_ANGLE in their order (R150, R151, R152, R155, R225). -/
def Obligations.QuadratureErrors : Prop :=
  ∀ s ch (inp : BitVec 16) i, (i = .qdStep ch inp ∨ i = .qdAngle ch inp) →
    (s.params.nQd ≤ ch.toNat → exec i s = .next (s.afterError 3))
    ∧ ∀ q, ch.toNat < s.params.nQd → s.qd[ch.toNat]? = some q →
      (q.ctrl.mode = .digital → 4 ≤ inp.toNat → exec i s = .next (s.afterError 4))
      ∧ (q.ctrl.mode = .analog → 2 ^ s.params.sampleW ≤ inp.toNat → exec i s = .next (s.afterError 4))
      ∧ (∀ k, q.ctrl.mode = .analog → inp.toNat < 2 ^ s.params.sampleW → s.bank[q.ctrl.bank.toNat]? = some k →
          k.count.val ≠ 4 → exec i s = .next (s.afterError 8))

/-- A reading that is no neighbour of the phase leaves seq and pos and gives no event, and the current phase T[seq] is
always such a reading: R157, an inference the spec marks as its own ("derived: from rule R153 and 10_state.md rule
R30"). -/
def Obligations.NoiseIsRejected : Prop :=
  ∀ q : QdChan, 1 ≤ q.seq.toNat → q.seq.toNat ≤ 7 →
    (∀ r, q.rejects r → decodeStep q r = .ok (q, .none)) ∧ q.rejects (seqT q.seq.toNat)

/-- From seq 4 the readings 2, 0, 1, 3 give one Up, at the fourth, and add 1; 1, 0, 2, 3 give one Down and subtract 1;
the forward cycle twice gives two Up and adds 2. In each case seq is 4 again. With INVERT set the inputs are the
complements of the readings (R151). R158 is an inference the spec marks as its own ("derived: from rule R153"). -/
def Obligations.OneDetentPerCycle : Prop :=
  ∀ s ch q, qdReady s ch q → q.seq = 4 → q.ctrl.mode = .digital →
    let reading (r : BitVec 2) : Instr := .qdStep ch ((if q.ctrl.invert then ~~~r else r).setWidth 16)
    let up := some (⟨1, 0⟩ : Response)
    let down := some (⟨2, 0⟩ : Response)
    let no := some (⟨0, 0⟩ : Response)
    (execAll [reading 2, reading 0, reading 1, reading 3] s
        = .next (s.qdAfter ch { q with pos := q.pos + 1 } 1, [no, no, no, up]))
    ∧ (execAll [reading 1, reading 0, reading 2, reading 3] s
        = .next (s.qdAfter ch { q with pos := q.pos - 1 } 2, [no, no, no, down]))
    ∧ (execAll [reading 2, reading 0, reading 1, reading 3, reading 2, reading 0, reading 1, reading 3] s
        = .next (s.qdAfter ch { q with pos := q.pos + 2 } 1, [no, no, no, up, no, no, no, up]))

/-- While `prev` is no neighbour of the phase, a stray sample changes neither seq nor pos nor prev and gives no event;
every analog step that completes leaves that condition, and it holds at reset. R159 is an inference the spec marks as
its own ("derived: from rules R152, R153, R157"). -/
def Obligations.AnalogFallbackNeverCorrupts : Prop :=
  (∀ s ch inp q k, qdReady s ch q → analogInput s q inp k → noMatch s.params.tolCmp k inp.toNat →
    q.rejects q.prev → exec (.qdStep ch inp) s = .next (s.answering 0))
  ∧ (∀ s t ch inp q q' k i, (i = .qdStep ch inp ∨ i = .qdAngle ch inp) → qdReady s ch q → analogInput s q inp k →
    exec i s = .next t → t.qd[ch.toNat]? = some q' → q'.rejects q'.prev)
  ∧ (∀ p c, (QdChan.atReset p c).rejects (QdChan.atReset p c).prev)

/-- QD_STEP and QD_ANGLE write seq, pos and prev of their own channel and nothing else, but for ERR when they raise
(R234); digital steps never write prev (R151). -/
def Obligations.QuadratureWritesItsChannelOnly : Prop :=
  ∀ s t ch inp i, (i = .qdStep ch inp ∨ i = .qdAngle ch inp) → exec i s = .next t →
    t = { s with qd := t.qd, err := t.err, response := t.response }
    ∧ t.qd.length = s.qd.length ∧ (∀ k : Nat, k ≠ ch.toNat → t.qd[k]? = s.qd[k]?)
    ∧ (∀ q q', s.qd[ch.toNat]? = some q → t.qd[ch.toNat]? = some q' →
        q'.ctrl = q.ctrl ∧ q'.detents = q.detents ∧ (q.ctrl.mode = .digital → q'.prev = q.prev))
    ∧ (t.completed → t.err = s.err) ∧ (¬ t.completed → t.qd = s.qd)

/-- QD_STEP and QD_ANGLE on ch read only QD[ch] with its QD_CTRL and QD_DETENTS, in analog mode its bank, and the
instance (R234): two states that agree on those give the same response and leave the same channel. -/
def Obligations.QuadratureReadsItsChannelOnly : Prop :=
  ∀ s u t ch inp i, (i = .qdStep ch inp ∨ i = .qdAngle ch inp) → u.params = s.params →
    u.qd[ch.toNat]? = s.qd[ch.toNat]? →
    (∀ q, s.qd[ch.toNat]? = some q → q.ctrl.mode = .analog → u.bank[q.ctrl.bank.toNat]? = s.bank[q.ctrl.bank.toNat]?) →
    exec i s = .next t →
    ∃ v, exec i u = .next v ∧ v.response = t.response ∧ v.qd[ch.toNat]? = t.qd[ch.toNat]?

/-- R154: +1 from 0x7FFFFFFF gives 0x80000000, which reads as -2^31, and -1 from 0x80000000 gives 0x7FFFFFFF; each is
a detent like any other, with its event and without an error. -/
def Obligations.PositionCounterWraps : Prop :=
  ∀ s ch inp q, qdReady s ch q → digitalInput q inp 3 →
    (q.seq = 7 → q.pos = 0x7FFFFFFF → ∃ t q', exec (.qdStep ch inp) s = .next t ∧ t.response = some ⟨1, 0⟩
      ∧ t.qd[ch.toNat]? = some q' ∧ q'.pos = 0x80000000 ∧ q'.pos.toInt = -2147483648)
    ∧ (q.seq = 1 → q.pos = 0x80000000 → ∃ t q', exec (.qdStep ch inp) s = .next t ∧ t.response = some ⟨2, 0⟩
      ∧ t.qd[ch.toNat]? = some q' ∧ q'.pos = 0x7FFFFFFF ∧ q'.pos.toInt = 2147483647)

/-- The ANGLE of every QD_ANGLE that completes is below the channel's detent count, whatever the counter: R160, an
inference the spec marks as its own ("derived: from rule R156"). -/
def Obligations.AngleIsBounded : Prop :=
  ∀ s t ch inp q v, s.qd[ch.toNat]? = some q → exec (.qdAngle ch inp) s = .next t → t.response = some ⟨v, 0⟩ →
    (v.extractLsb' 16 16).toNat < q.detents.toNat

/-- R262: no command moves a position counter by anything but one detent, and seq and pos change only by the
transitions of R153. -/
def Obligations.CountersMoveByOneDetent : Prop :=
  ∀ i s t (k : Nat) q q', exec i s = .next t → s.qd[k]? = some q → t.qd[k]? = some q' →
    (q'.pos = q.pos ∧ (q'.seq = q.seq ∨ q'.seq = q.seq + 1 ∨ q'.seq = q.seq - 1))
    ∨ (q'.seq = 4 ∧ ((q.seq = 7 ∧ q'.pos = q.pos + 1) ∨ (q.seq = 1 ∧ q'.pos = q.pos - 1)))

/-- Each context is written by its own step commands only (R203, R207, R23, R28): DB[ch] by DB_STEP ch; seq, pos and
prev of channel ch by QD_STEP ch and QD_ANGLE ch. -/
def Obligations.ContextsHaveOneWriter : Prop :=
  ∀ i s t, exec i s = .next t →
    (∀ k : Nat, (∀ ch raw, i = .dbStep ch raw → ch.toNat ≠ k) → t.db[k]? = s.db[k]?)
    ∧ (∀ k : Nat, (∀ ch inp, i = .qdStep ch inp ∨ i = .qdAngle ch inp → ch.toNat ≠ k) →
        (t.qd[k]?).map (fun q => (q.seq, q.pos, q.prev)) = (s.qd[k]?).map (fun q => (q.seq, q.pos, q.prev)))

/-! ## CLASSIFY and JOY_CLASSIFY -/

/-- CLASSIFY (R180, R181, R182): the index of the first reference in use within tolerance, or no match; nothing is
written. -/
def Obligations.ClassifyFindsTheFirstMatch : Prop :=
  ∀ s b sample k, b.toNat < s.params.nBank → s.bank[b.toNat]? = some k → sample.toNat < 2 ^ s.params.sampleW →
    (∀ i : Fin 16, firstMatch s.params.tolCmp k sample.toNat i →
      exec (.classify b sample) s = .next (s.answering (BitVec.ofNat 32 (2 ^ 31 + i.val))))
    ∧ (noMatch s.params.tolCmp k sample.toNat → exec (.classify b sample) s = .next (s.answering 0))

/-- JOY_CLASSIFY (R183): no direction when an axis has no match or both are at their center; otherwise the index pair;
nothing is written. -/
def Obligations.JoystickDirection : Prop :=
  ∀ s (x y : BitVec 12) kx ky,
    x.toNat < 2 ^ s.params.sampleW → y.toNat < 2 ^ s.params.sampleW →
    s.bank[s.joyCtrl.bankX.toNat]? = some kx → s.bank[s.joyCtrl.bankY.toNat]? = some ky →
    ((noMatch s.params.tolCmp kx x.toNat ∨ noMatch s.params.tolCmp ky y.toNat) →
      exec (.joyClassify x y) s = .next (s.answering 0))
    ∧ (∀ ix iy : Fin 16, firstMatch s.params.tolCmp kx x.toNat ix → firstMatch s.params.tolCmp ky y.toNat iy →
      (ix.val = s.joyCtrl.centerX.toNat ∧ iy.val = s.joyCtrl.centerY.toNat →
        exec (.joyClassify x y) s = .next (s.answering 0))
      ∧ (¬ (ix.val = s.joyCtrl.centerX.toNat ∧ iy.val = s.joyCtrl.centerY.toNat) →
        exec (.joyClassify x y) s = .next (s.answering (BitVec.ofNat 32 (2 ^ 31 + 16 * iy.val + ix.val)))))

/-- The errors of CLASSIFY and JOY_CLASSIFY (R182, R183, R225). -/
def Obligations.ClassifierErrors : Prop :=
  (∀ s b (sample : BitVec 16),
    (s.params.nBank ≤ b.toNat → exec (.classify b sample) s = .next (s.afterError 3))
    ∧ (b.toNat < s.params.nBank → 2 ^ s.params.sampleW ≤ sample.toNat →
        exec (.classify b sample) s = .next (s.afterError 4)))
  ∧ (∀ s (x y : BitVec 12), (2 ^ s.params.sampleW ≤ x.toNat ∨ 2 ^ s.params.sampleW ≤ y.toNat) →
      exec (.joyClassify x y) s = .next (s.afterError 4))

/-! ## NOP, CFG_READ, CFG_WRITE -/

/-- NOP answers 0 (R200); NOP, CFG_READ, CLASSIFY and JOY_CLASSIFY write no state (R200, R201, R182, R183), but for
ERR when they raise. -/
def Obligations.NopAndReadingCommandsWriteNothing : Prop :=
  (∀ s, exec .nop s = .next (s.answering 0))
  ∧ ∀ i s t, (i = .nop ∨ (∃ a, i = .cfgRead a) ∨ (∃ b x, i = .classify b x) ∨ ∃ x y, i = .joyClassify x y) →
    exec i s = .next t →
    t = { s with err := t.err, response := t.response } ∧ (t.completed → t.err = s.err)

/-- CFG_READ of the global registers (R31 to R38, R61): the timing durations, ERR with its reserved bits 0, and
JOY_CTRL with its fields in their places. -/
def Obligations.CfgReadGlobals : Prop :=
  ∀ s : State,
    answersRead 0x000 s s.timing.holdTime.toNat ∧ answersRead 0x001 s s.timing.debounceTime.toNat
    ∧ answersRead 0x002 s s.timing.repeatTime.toNat ∧ answersRead 0x003 s s.timing.dashThreshold.toNat
    ∧ answersRead 0x004 s s.timing.dashTime.toNat
    ∧ answersRead 0x008 s (s.err &&& 0x1FE).toNat
    ∧ answersRead 0x009 s (s.joyCtrl.bankX.toNat + 2 ^ 4 * s.joyCtrl.bankY.toNat
        + 2 ^ 8 * s.joyCtrl.centerX.toNat + 2 ^ 12 * s.joyCtrl.centerY.toNat)

/-- CFG_READ of the debounce contexts (R39, R24), the quadrature registers (R40 to R42) and the banks (R43 to R45). -/
def Obligations.CfgReadChannelsAndBanks : Prop :=
  (∀ s (ch : Nat) c, countsOk s.params → ch < s.params.nDb → s.db[ch]? = some c →
    (c.state = .up → answersRead (0x100 + 4 * ch) s 0)
    ∧ (c.state = .debounce → answersRead (0x100 + 4 * ch) s 1)
    ∧ (c.state = .pressed → answersRead (0x100 + 4 * ch) s 2)
    ∧ (c.state = .down → answersRead (0x100 + 4 * ch) s 3)
    ∧ (c.state = .released → answersRead (0x100 + 4 * ch) s 4)
    ∧ (c.state = .held → answersRead (0x100 + 4 * ch) s 5)
    ∧ answersRead (0x100 + 4 * ch + 1) s c.tracked.toNat ∧ answersRead (0x100 + 4 * ch + 2) s c.t0.toNat)
  ∧ (∀ s (ch : Nat) q, countsOk s.params → ch < s.params.nQd → s.qd[ch]? = some q →
    answersRead (0x200 + 8 * ch) s ((if q.ctrl.mode = .analog then 1 else 0) + (if q.ctrl.invert then 2 else 0)
        + 2 ^ 4 * q.ctrl.bank.toNat)
    ∧ answersRead (0x200 + 8 * ch + 1) s q.detents.toNat ∧ answersRead (0x200 + 8 * ch + 2) s q.seq.toNat
    ∧ answersRead (0x200 + 8 * ch + 3) s q.pos.toNat ∧ answersRead (0x200 + 8 * ch + 4) s q.prev.toNat)
  ∧ (∀ s (b : Nat) k, countsOk s.params → b < s.params.nBank → s.bank[b]? = some k →
    answersRead (0x400 + 32 * b) s k.count.val ∧ answersRead (0x400 + 32 * b + 1) s k.tol.toNat
    ∧ ∀ i : Fin 16, answersRead (0x400 + 32 * b + 16 + i.val) s (k.refs[i.val]'i.isLt).toNat)

/-- An unmapped address (R63) raises BAD_ADDRESS in CFG_READ and CFG_WRITE (R61, R62) and changes nothing else. -/
def Obligations.UnmappedAddressesRaise : Prop :=
  ∀ s (a : Addr) v, countsOk s.params → ¬ mapped s.params a.toNat →
    exec (.cfgRead a) s = .next (s.afterError 5) ∧ exec (.cfgWrite a v) s = .next (s.afterError 5)

/-- R203: a CFG_WRITE to a read-only register raises READ_ONLY and changes nothing but ERR. -/
def Obligations.ReadOnlyRegistersRefuseWrites : Prop :=
  ∀ s v, countsOk s.params →
    writeRaises 0x008 v s 6
    ∧ (∀ ch k, ch < s.params.nDb → k < 3 → writeRaises (0x100 + 4 * ch + k) v s 6)
    ∧ (∀ ch k, ch < s.params.nQd → 2 ≤ k → k < 5 → writeRaises (0x200 + 8 * ch + k) v s 6)

/-- CFG_WRITE of the global registers (R31 to R38, R204, R206): each duration takes any value; JOY_CTRL takes a value
whose reserved bits are 0 and whose banks exist, field by field, and raises BAD_VALUE on any other. -/
def Obligations.CfgWriteGlobals : Prop :=
  ∀ s (v : Word),
    writes 0x000 v s { s with timing := { s.timing with holdTime := v } }
    ∧ writes 0x001 v s { s with timing := { s.timing with debounceTime := v } }
    ∧ writes 0x002 v s { s with timing := { s.timing with repeatTime := v } }
    ∧ writes 0x003 v s { s with timing := { s.timing with dashThreshold := v } }
    ∧ writes 0x004 v s { s with timing := { s.timing with dashTime := v } }
    ∧ (v.toNat < 2 ^ 16 ∧ v.toNat % 16 < s.params.nBank ∧ v.toNat / 2 ^ 4 % 16 < s.params.nBank →
        writes 0x009 v s { s with joyCtrl :=
          { bankX := BitVec.ofNat 4 v.toNat, bankY := BitVec.ofNat 4 (v.toNat / 2 ^ 4),
            centerX := BitVec.ofNat 4 (v.toNat / 2 ^ 8), centerY := BitVec.ofNat 4 (v.toNat / 2 ^ 12) } })
    ∧ (¬ (v.toNat < 2 ^ 16 ∧ v.toNat % 16 < s.params.nBank ∧ v.toNat / 2 ^ 4 % 16 < s.params.nBank) →
        writeRaises 0x009 v s 7)

/-- CFG_WRITE of QD_CTRL and QD_DETENTS (R40, R41, R204, R206, R207): the fields, or BAD_VALUE; seq, pos and prev
stay. -/
def Obligations.CfgWriteChannels : Prop :=
  ∀ s (ch : Nat) q (v : Word), countsOk s.params → ch < s.params.nQd → s.qd[ch]? = some q →
    (v.toNat < 2 ^ 8 ∧ v.toNat / 4 % 4 = 0 ∧ v.toNat / 2 ^ 4 < s.params.nBank →
      writes (0x200 + 8 * ch) v s { s with qd := s.qd.set ch { q with ctrl :=
        { mode := if v.toNat % 2 = 1 then .analog else .digital, invert := decide (v.toNat / 2 % 2 = 1),
          bank := BitVec.ofNat 4 (v.toNat / 2 ^ 4) } } })
    ∧ (¬ (v.toNat < 2 ^ 8 ∧ v.toNat / 4 % 4 = 0 ∧ v.toNat / 2 ^ 4 < s.params.nBank) →
      writeRaises (0x200 + 8 * ch) v s 7)
    ∧ (1 ≤ v.toNat ∧ v.toNat < 2 ^ 16 →
      writes (0x200 + 8 * ch + 1) v s { s with qd := s.qd.set ch { q with detents := BitVec.ofNat 16 v.toNat } })
    ∧ (¬ (1 ≤ v.toNat ∧ v.toNat < 2 ^ 16) → writeRaises (0x200 + 8 * ch + 1) v s 7)

/-- CFG_WRITE of the banks (R43 to R45, R204, R206): the count up to 16, the tolerance and the references below
2^SAMPLE_W, or BAD_VALUE. -/
def Obligations.CfgWriteBanks : Prop :=
  ∀ s (b : Nat) k (v : Word), countsOk s.params → s.params.sampleW ≤ 12 → b < s.params.nBank → s.bank[b]? = some k →
    (∀ n : Fin 17, v.toNat = n.val →
      writes (0x400 + 32 * b) v s { s with bank := s.bank.set b { k with count := n } })
    ∧ (16 < v.toNat → writeRaises (0x400 + 32 * b) v s 7)
    ∧ (v.toNat < 2 ^ s.params.sampleW →
      writes (0x400 + 32 * b + 1) v s { s with bank := s.bank.set b { k with tol := BitVec.ofNat 12 v.toNat } })
    ∧ (2 ^ s.params.sampleW ≤ v.toNat → writeRaises (0x400 + 32 * b + 1) v s 7)
    ∧ (∀ i : Fin 16, v.toNat < 2 ^ s.params.sampleW →
      writes (0x400 + 32 * b + 16 + i.val) v s
        { s with bank := s.bank.set b { k with refs := k.refs.set i.val (BitVec.ofNat 12 v.toNat) i.isLt } })
    ∧ (∀ i : Fin 16, 2 ^ s.params.sampleW ≤ v.toNat → writeRaises (0x400 + 32 * b + 16 + i.val) v s 7)

/-- A CFG_WRITE that completes stores exactly DATA: reading the address back gives it (R61, R204, R206). -/
def Obligations.ReadBackGivesTheWrittenValue : Prop :=
  ∀ s t a v, s.params.sampleW ≤ 12 → exec (.cfgWrite a v) s = .next t → t.completed →
    exec (.cfgRead a) t = .next (t.answering v)

/-- R62: a write changes only the addressed register: every other address reads as before, mapped or not, and ERR
too. -/
def Obligations.WriteChangesOnlyItsRegister : Prop :=
  ∀ s t a b v, exec (.cfgWrite a v) s = .next t → t.completed → b ≠ a →
    regRead t b = regRead s b ∧ t.err = s.err ∧ t.params = s.params

/-! ## The host's side -/

/-- The host's calls (R246) read one command's response. `poll` gives keymap of the emitted code where DB_STEP emits
and NO_KEY where it does not or raises, and under R247 the two cannot be confused; `poll_rotation` gives rotmap of the
event, and NO_KEY for none and for an error; `angle` gives RESP[31:16]. -/
def Obligations.HostCallsReadTheResponse : Prop :=
  (∀ s t ch raw v e, Invariant s → exec (.dbStep ch raw) s = .next t → t.response = some ⟨v, e⟩ →
    ∃ key, poll ch raw s = .next (t, key) ∧ (key ≠ 0 ↔ e = 0 ∧ v.getLsbD 31 = true)
      ∧ ∀ c : Code, e = 0 → v = emits c → key = s.params.keymap.getD c.toNat 0)
  ∧ (∀ s t ch inp v e, exec (.qdStep ch inp) s = .next t → t.response = some ⟨v, e⟩ →
    ∃ key, pollRotation ch inp s = .next (t, key)
      ∧ (e = 0 ∧ v = 1 → key = s.params.rotmapUp) ∧ (e = 0 ∧ v = 2 → key = s.params.rotmapDown)
      ∧ (e ≠ 0 ∨ v = 0 → key = 0))
  ∧ (∀ s t ch inp v e, exec (.qdAngle ch inp) s = .next t → t.response = some ⟨v, e⟩ →
    angle ch inp s = .next (t, v.toNat / 2 ^ 16))
end

