-- ==== Sys2Proof/Laws/State.lean ====
section
/-! SUPPORT. One lemma per field per update of the state, each true by rfl. -/

namespace Sys2Proof.Machine

variable (s : State) (e : ErrCode) (v : Word) (ch : Chan)

@[simp] theorem raise_timing : (raise e s).timing = s.timing := rfl
@[simp] theorem raise_err : (raise e s).err = s.err ||| e.bit := rfl
@[simp] theorem raise_joyCtrl : (raise e s).joyCtrl = s.joyCtrl := rfl
@[simp] theorem raise_db : (raise e s).db = s.db := rfl
@[simp] theorem raise_qd : (raise e s).qd = s.qd := rfl
@[simp] theorem raise_bank : (raise e s).bank = s.bank := rfl
@[simp] theorem raise_params : (raise e s).params = s.params := rfl
@[simp] theorem raise_now : (raise e s).now = s.now := rfl
@[simp] theorem raise_response : (raise e s).response = some ⟨0, e.rerr⟩ := rfl
@[simp] theorem raise_inputs : (raise e s).inputs = s.inputs := rfl

@[simp] theorem respond_timing : (respond v s).timing = s.timing := rfl
@[simp] theorem respond_err : (respond v s).err = s.err := rfl
@[simp] theorem respond_joyCtrl : (respond v s).joyCtrl = s.joyCtrl := rfl
@[simp] theorem respond_db : (respond v s).db = s.db := rfl
@[simp] theorem respond_qd : (respond v s).qd = s.qd := rfl
@[simp] theorem respond_bank : (respond v s).bank = s.bank := rfl
@[simp] theorem respond_params : (respond v s).params = s.params := rfl
@[simp] theorem respond_now : (respond v s).now = s.now := rfl
@[simp] theorem respond_response : (respond v s).response = some ⟨v, 0⟩ := rfl
@[simp] theorem respond_inputs : (respond v s).inputs = s.inputs := rfl

variable (c : DbCtx) (q : QdChan) (k : Bank)

@[simp] theorem setDb_timing : (s.setDb ch c).timing = s.timing := rfl
@[simp] theorem setDb_err : (s.setDb ch c).err = s.err := rfl
@[simp] theorem setDb_joyCtrl : (s.setDb ch c).joyCtrl = s.joyCtrl := rfl
@[simp] theorem setDb_db : (s.setDb ch c).db = s.db.set ch.toNat c := rfl
@[simp] theorem setDb_qd : (s.setDb ch c).qd = s.qd := rfl
@[simp] theorem setDb_bank : (s.setDb ch c).bank = s.bank := rfl
@[simp] theorem setDb_params : (s.setDb ch c).params = s.params := rfl
@[simp] theorem setDb_now : (s.setDb ch c).now = s.now := rfl
@[simp] theorem setDb_response : (s.setDb ch c).response = s.response := rfl
@[simp] theorem setDb_inputs : (s.setDb ch c).inputs = s.inputs := rfl

@[simp] theorem setQd_timing : (s.setQd ch q).timing = s.timing := rfl
@[simp] theorem setQd_err : (s.setQd ch q).err = s.err := rfl
@[simp] theorem setQd_joyCtrl : (s.setQd ch q).joyCtrl = s.joyCtrl := rfl
@[simp] theorem setQd_db : (s.setQd ch q).db = s.db := rfl
@[simp] theorem setQd_qd : (s.setQd ch q).qd = s.qd.set ch.toNat q := rfl
@[simp] theorem setQd_bank : (s.setQd ch q).bank = s.bank := rfl
@[simp] theorem setQd_params : (s.setQd ch q).params = s.params := rfl
@[simp] theorem setQd_now : (s.setQd ch q).now = s.now := rfl
@[simp] theorem setQd_response : (s.setQd ch q).response = s.response := rfl
@[simp] theorem setQd_inputs : (s.setQd ch q).inputs = s.inputs := rfl

@[simp] theorem setBank_timing : (s.setBank ch k).timing = s.timing := rfl
@[simp] theorem setBank_err : (s.setBank ch k).err = s.err := rfl
@[simp] theorem setBank_joyCtrl : (s.setBank ch k).joyCtrl = s.joyCtrl := rfl
@[simp] theorem setBank_db : (s.setBank ch k).db = s.db := rfl
@[simp] theorem setBank_qd : (s.setBank ch k).qd = s.qd := rfl
@[simp] theorem setBank_bank : (s.setBank ch k).bank = s.bank.set ch.toNat k := rfl
@[simp] theorem setBank_params : (s.setBank ch k).params = s.params := rfl
@[simp] theorem setBank_now : (s.setBank ch k).now = s.now := rfl
@[simp] theorem setBank_response : (s.setBank ch k).response = s.response := rfl
@[simp] theorem setBank_inputs : (s.setBank ch k).inputs = s.inputs := rfl

@[simp] theorem applyReset_params : (applyReset s).params = s.params := rfl
@[simp] theorem applyReset_now : (applyReset s).now = s.now := rfl
@[simp] theorem applyReset_inputs : (applyReset s).inputs = s.inputs := rfl
@[simp] theorem applyReset_response : (applyReset s).response = none := rfl
@[simp] theorem applyReset_err : (applyReset s).err = 0 := rfl

/-- Raising error e is what the statements call the state after error number e.num. -/
theorem raise_eq_afterError : raise e s = s.afterError e.num := by cases e <;> rfl

end Sys2Proof.Machine
end

