-- ==== Sys2Proof/Laws/Ops.lean ====
section
/-! SUPPORT. What each shared operation can do, said once. -/

namespace Sys2Proof.Machine

/-- A command's bind succeeds exactly when both halves do. -/
theorem bind_ok_iff {α β : Type} {x : Except Stop α} {f : α → Except Stop β} {b : β} :
    (x >>= f) = .ok b ↔ ∃ a, x = .ok a ∧ f a = .ok b := by
  cases x <;> simp [bind, Except.bind]

/-- A command's bind stops exactly when one of its halves does. -/
theorem bind_error_iff {α β : Type} {x : Except Stop α} {f : α → Except Stop β} {e : Stop} :
    (x >>= f) = .error e ↔ x = .error e ∨ ∃ a, x = .ok a ∧ f a = .error e := by
  cases x <;> simp [bind, Except.bind]

theorem pure_ok_iff {α : Type} {a b : α} : (pure a : Except Stop α) = .ok b ↔ a = b := by
  simp [pure, Except.pure]

theorem pure_error_iff {α : Type} {a : α} {e : Stop} : (pure a : Except Stop α) = .error e ↔ False := by
  simp [pure, Except.pure]

theorem require_ok_iff {b : Bool} {e : ErrCode} {u : Unit} : require b e = .ok u ↔ b = true := by
  cases b <;> simp [require]

theorem require_error_iff {b : Bool} {e : ErrCode} {x : Stop} :
    require b e = .error x ↔ b = false ∧ x = .error e := by
  cases b <;> simp [require, eq_comm]

theorem getDb_ok_iff {s : State} {ch : Chan} {c : DbCtx} : s.getDb ch = .ok c ↔ s.db[ch.toNat]? = some c := by
  unfold State.getDb; split <;> simp_all

theorem getDb_error_iff {s : State} {ch : Chan} {x : Stop} :
    s.getDb ch = .error x ↔ s.db[ch.toNat]? = none ∧ x = .fault .missingChannel := by
  cases h : s.db[ch.toNat]? <;> simp [State.getDb, h, eq_comm]

theorem getQd_ok_iff {s : State} {ch : Chan} {q : QdChan} : s.getQd ch = .ok q ↔ s.qd[ch.toNat]? = some q := by
  unfold State.getQd; split <;> simp_all

theorem getQd_error_iff {s : State} {ch : Chan} {x : Stop} :
    s.getQd ch = .error x ↔ s.qd[ch.toNat]? = none ∧ x = .fault .missingChannel := by
  cases h : s.qd[ch.toNat]? <;> simp [State.getQd, h, eq_comm]

theorem getBank_ok_iff {s : State} {b : Chan} {k : Bank} : s.getBank b = .ok k ↔ s.bank[b.toNat]? = some k := by
  unfold State.getBank; split <;> simp_all

theorem getBank_error_iff {s : State} {b : Chan} {x : Stop} :
    s.getBank b = .error x ↔ s.bank[b.toNat]? = none ∧ x = .fault .missingBank := by
  cases h : s.bank[b.toNat]? <;> simp [State.getBank, h, eq_comm]

/-- A mapped result stops exactly when the result does. -/
theorem map_ok_iff {α β : Type} {x : Except Stop α} {f : α → β} {b : β} :
    x.map f = .ok b ↔ ∃ a, x = .ok a ∧ f a = b := by
  cases x <;> simp [Except.map]

theorem map_error_iff {α β : Type} {x : Except Stop α} {f : α → β} {e : Stop} :
    x.map f = .error e ↔ x = .error e := by
  cases x <;> simp [Except.map]

/-- A command that answers a next state either ran to its end, and the state is its writes with its response, or
raised an error on the state it began in. -/
theorem complete_next_iff {s t : State} {r : Except Stop (State × Word)} :
    complete s r = .next t ↔
      (∃ u v, r = .ok (u, v) ∧ t = respond v u) ∨ (∃ e, r = .error (.error e) ∧ t = raise e s) := by
  match r with
  | .ok (u, v) => simp [complete, eq_comm]
  | .error (.error e) => simp [complete, eq_comm]
  | .error (.fault f) => simp [complete]

/-- No command is refused. -/
theorem complete_ne_refused {s : State} {r : Except Stop (State × Word)} {x : Refusal} :
    complete s r ≠ .refused x := by
  match r with
  | .ok (u, v) => simp [complete]
  | .error (.error e) => simp [complete]
  | .error (.fault f) => simp [complete]

/-- A command that stops on no fault answers a next state. -/
theorem complete_runs {s : State} {r : Except Stop (State × Word)} (h : ∀ f, r ≠ .error (.fault f)) :
    ∃ t, complete s r = .next t := by
  match r with
  | .ok (u, v) => exact ⟨_, rfl⟩
  | .error (.error e) => exact ⟨_, rfl⟩
  | .error (.fault f) => exact absurd rfl (h f)

theorem ErrCode.rerr_ne_zero (e : ErrCode) : e.rerr ≠ 0 := by cases e <;> decide

/-- RERR tells an error from a completion. -/
theorem raise_not_completed (e : ErrCode) (s : State) : ¬ (raise e s).completed := by
  rintro ⟨v, h⟩
  simp only [raise_response, Option.some.injEq, Response.mk.injEq] at h
  exact e.rerr_ne_zero h.2

theorem respond_completed (v : Word) (s : State) : (respond v s).completed := ⟨v, rfl⟩

theorem checkChannel_ok_iff {ch : Chan} {n : Nat} {u : Unit} : checkChannel ch n = .ok u ↔ ch.toNat < n := by
  simp [checkChannel, require_ok_iff]

theorem checkChannel_error_iff {ch : Chan} {n : Nat} {x : Stop} :
    checkChannel ch n = .error x ↔ n ≤ ch.toNat ∧ x = .error .badChannel := by
  simp [checkChannel, require_error_iff]

theorem checkRaw_ok_iff {p : Params} {raw : Code} {u : Unit} :
    checkRaw p raw = .ok u ↔ raw = noneRaw ∨ raw.toNat < p.nCodes := by
  simp [checkRaw, require_ok_iff]

theorem checkRaw_error_iff {p : Params} {raw : Code} {x : Stop} :
    checkRaw p raw = .error x ↔ (raw ≠ noneRaw ∧ p.nCodes ≤ raw.toNat) ∧ x = .error .badOperand := by
  simp [checkRaw, require_error_iff]

theorem checkSample_ok_iff {p : Params} {v : Nat} {u : Unit} : checkSample p v = .ok u ↔ v < 2 ^ p.sampleW := by
  simp [checkSample, require_ok_iff]

theorem checkSample_error_iff {p : Params} {v : Nat} {x : Stop} :
    checkSample p v = .error x ↔ 2 ^ p.sampleW ≤ v ∧ x = .error .badOperand := by
  simp [checkSample, require_error_iff]

/-- IN[15:2] is 0 exactly when IN is a 2-bit number. -/
theorem high_zero_iff_lt_four (inp : BitVec 16) : inp.extractLsb' 2 14 = 0 ↔ inp.toNat < 4 := by
  rw [← BitVec.toNat_inj]
  have := inp.isLt
  simp only [BitVec.extractLsb'_toNat, Nat.shiftRight_eq_div_pow]
  show _ = 0 ↔ _
  omega

theorem checkDigital_ok_iff {inp : BitVec 16} {u : Unit} : checkDigital inp = .ok u ↔ inp.toNat < 4 := by
  simp [checkDigital, require_ok_iff, ← high_zero_iff_lt_four]

theorem checkDigital_error_iff {inp : BitVec 16} {x : Stop} :
    checkDigital inp = .error x ↔ 4 ≤ inp.toNat ∧ x = .error .badOperand := by
  have h := high_zero_iff_lt_four inp
  rw [checkDigital, require_error_iff, beq_eq_false_iff_ne, ne_eq, h, Nat.not_lt]

end Sys2Proof.Machine
end

