-- ==== Sys2Proof/Laws/Commands.lean ====
section
/-! SUPPORT. What each command's body can do, said once: when it runs to its end and with what writes, and with which
errors it stops. -/

namespace Sys2Proof.Machine

theorem sense_ok_iff {s : State} {q : QdChan} {inp : BitVec 16} {r : QdChan × BitVec 2} :
    sense s q inp = .ok r ↔
      (q.ctrl.mode = .digital ∧ inp.toNat < 4 ∧ r = (q, digitalReading q.ctrl.invert inp))
      ∨ (q.ctrl.mode = .analog ∧ inp.toNat < 2 ^ s.params.sampleW
          ∧ ∃ k, s.bank[q.ctrl.bank.toNat]? = some k ∧ k.count.val = 4
            ∧ r = analogReading q (classifyIn s.params.tolCmp k inp.toNat)) := by
  cases hm : q.ctrl.mode with
  | digital =>
    simp only [sense, hm, senseDigital, bind_ok_iff, pure_ok_iff, checkDigital_ok_iff, reduceCtorEq, false_and, or_false,
      true_and]
    exact ⟨fun ⟨_, h, e⟩ => ⟨h, e.symm⟩, fun ⟨h, e⟩ => ⟨(), h, e.symm⟩⟩
  | analog =>
    simp only [sense, hm, senseAnalog, bind_ok_iff, pure_ok_iff, checkSample_ok_iff, getBank_ok_iff, require_ok_iff,
      decide_eq_true_eq, reduceCtorEq, false_and, false_or, true_and]
    exact ⟨fun ⟨_, h, k, hk, _, h4, e⟩ => ⟨h, k, hk, h4, e.symm⟩, fun ⟨h, k, hk, h4, e⟩ => ⟨(), h, k, hk, (), h4, e.symm⟩⟩

/-- What QD_STEP and QD_ANGLE share runs to its end exactly when the checks pass. -/
theorem quadStep_ok_iff {s : State} {ch : Chan} {inp : BitVec 16} {r : QdChan × Rot} :
    quadStep ch inp s = .ok r ↔
      ch.toNat < s.params.nQd ∧ ∃ q x, s.qd[ch.toNat]? = some q ∧ sense s q inp = .ok x
        ∧ 1 ≤ x.1.seq.toNat ∧ x.1.seq.toNat ≤ 7 ∧ r = decodeRot x.1 x.2 := by
  unfold quadStep decodeStep
  simp only [bind_ok_iff, checkChannel_ok_iff, getQd_ok_iff]
  constructor
  · rintro ⟨-, hc, q, hq, x, hx, h⟩
    split at h
    · rename_i hs
      exact ⟨hc, q, x, hq, hx, hs.1, hs.2, by cases h; rfl⟩
    · cases h
  · rintro ⟨hc, q, x, hq, hx, h1, h7, rfl⟩
    exact ⟨(), hc, q, hq, x, hx, by rw [if_pos ⟨h1, h7⟩]⟩

theorem dbStepBody_ok_iff {s : State} {ch : Chan} {raw : Code} {u : State} {v : Word} :
    dbStepBody ch raw s = .ok (u, v) ↔
      ch.toNat < s.params.nDb ∧ (raw = noneRaw ∨ raw.toNat < s.params.nCodes) ∧ ∃ c, s.db[ch.toNat]? = some c
        ∧ u = s.setDb ch (dbPoll s.timing s.now raw c).1 ∧ v = respEmission (dbPoll s.timing s.now raw c).2 := by
  simp only [dbStepBody, bind_ok_iff, pure_ok_iff, checkChannel_ok_iff, checkRaw_ok_iff, getDb_ok_iff, Prod.mk.injEq]
  exact ⟨fun ⟨_, h, _, hr, c, hc, hu, hv⟩ => ⟨h, hr, c, hc, hu.symm, hv.symm⟩,
    fun ⟨h, hr, c, hc, hu, hv⟩ => ⟨(), h, (), hr, c, hc, hu.symm, hv.symm⟩⟩

theorem dbStepBody_error {s : State} {ch : Chan} {raw : Code} {e : Stop} (h : dbStepBody ch raw s = .error e) :
    (e = .error .badChannel ∧ s.params.nDb ≤ ch.toNat)
      ∨ (e = .error .badOperand ∧ ch.toNat < s.params.nDb ∧ raw ≠ noneRaw ∧ s.params.nCodes ≤ raw.toNat)
      ∨ (e = .fault .missingChannel ∧ ch.toNat < s.params.nDb ∧ s.db[ch.toNat]? = none) := by
  simp only [dbStepBody, bind_error_iff, pure_error_iff, checkChannel_error_iff, checkRaw_error_iff, getDb_error_iff,
    checkChannel_ok_iff, and_false, exists_false, or_false] at h
  rcases h with ⟨h1, rfl⟩ | ⟨-, hc, ⟨⟨h1, h2⟩, rfl⟩ | ⟨-, -, h1, rfl⟩⟩
  · exact .inl ⟨rfl, h1⟩
  · exact .inr (.inl ⟨rfl, hc, h1, h2⟩)
  · exact .inr (.inr ⟨rfl, hc, h1⟩)

theorem qdStepBody_ok_iff {s : State} {ch : Chan} {inp : BitVec 16} {u : State} {v : Word} :
    qdStepBody ch inp s = .ok (u, v) ↔
      ∃ r, quadStep ch inp s = .ok r ∧ u = s.setQd ch r.1 ∧ v = respRot r.2 := by
  simp only [qdStepBody, bind_ok_iff, pure_ok_iff, Prod.mk.injEq]
  exact ⟨fun ⟨r, h, hu, hv⟩ => ⟨r, h, hu.symm, hv.symm⟩, fun ⟨r, h, hu, hv⟩ => ⟨r, h, hu.symm, hv.symm⟩⟩

theorem qdAngleBody_ok_iff {s : State} {ch : Chan} {inp : BitVec 16} {u : State} {v : Word} :
    qdAngleBody ch inp s = .ok (u, v) ↔
      ∃ r, quadStep ch inp s = .ok r ∧ r.1.detents ≠ 0 ∧ u = s.setQd ch r.1
        ∧ v = respAngle (angleOf r.1.pos r.1.detents) r.2 := by
  simp only [qdAngleBody, bind_ok_iff]
  constructor
  · rintro ⟨r, hr, h⟩
    split at h
    · cases h
    · rename_i hd
      simp only [pure_ok_iff, Prod.mk.injEq] at h
      exact ⟨r, hr, hd, h.1.symm, h.2.symm⟩
  · rintro ⟨r, hr, hd, rfl, rfl⟩
    exact ⟨r, hr, by rw [if_neg hd]; rfl⟩

/-- The stops of what QD_STEP and QD_ANGLE share: an error, or a fault in a state no run reaches. -/
theorem quadStep_error {s : State} {ch : Chan} {inp : BitVec 16} {e : Stop} (h : quadStep ch inp s = .error e) :
    (e = .error .badChannel ∧ s.params.nQd ≤ ch.toNat)
      ∨ e = .error .badOperand ∨ e = .error .badConfig
      ∨ (e = .fault .missingChannel ∧ ch.toNat < s.params.nQd ∧ s.qd[ch.toNat]? = none)
      ∨ (e = .fault .missingBank ∧ ∃ q, s.qd[ch.toNat]? = some q ∧ s.bank[q.ctrl.bank.toNat]? = none)
      ∨ (e = .fault .seqOffTable ∧ ∃ q, s.qd[ch.toNat]? = some q ∧ ¬ (1 ≤ q.seq.toNat ∧ q.seq.toNat ≤ 7)) := by
  simp only [quadStep, bind_error_iff, checkChannel_error_iff, checkChannel_ok_iff, getQd_error_iff, getQd_ok_iff] at h
  rcases h with ⟨h1, rfl⟩ | ⟨-, hc, ⟨h1, rfl⟩ | ⟨q, hq, h | ⟨x, hx, h⟩⟩⟩
  · exact .inl ⟨rfl, h1⟩
  · exact .inr (.inr (.inr (.inl ⟨rfl, hc, h1⟩)))
  · cases hm : q.ctrl.mode with
    | digital =>
      simp only [sense, hm, senseDigital, bind_error_iff, checkDigital_error_iff, pure_error_iff, and_false,
        exists_false, or_false] at h
      exact .inr (.inl h.2)
    | analog =>
      simp only [sense, hm, senseAnalog, bind_error_iff, checkSample_error_iff, getBank_error_iff, require_error_iff,
        pure_error_iff, and_false, exists_false, or_false] at h
      rcases h with ⟨-, rfl⟩ | ⟨-, -, ⟨h1, rfl⟩ | ⟨-, -, -, rfl⟩⟩
      · exact .inr (.inl rfl)
      · exact .inr (.inr (.inr (.inr (.inl ⟨rfl, q, hq, h1⟩))))
      · exact .inr (.inr (.inl rfl))
  · have hseq : x.1.seq = q.seq := by
      rcases sense_ok_iff.1 hx with ⟨-, -, rfl⟩ | ⟨-, -, k, -, -, rfl⟩
      · rfl
      · unfold analogReading; split <;> rfl
    unfold decodeStep at h
    rw [hseq] at h
    split at h
    · cases h
    · rename_i hs
      cases h
      exact .inr (.inr (.inr (.inr (.inr ⟨rfl, q, hq, hs⟩))))

theorem classifyAt_ok_iff {s : State} {b : Chan} {x : Nat} {m : Option (BitVec 4)} :
    classifyAt s b x = .ok m ↔ ∃ k, s.bank[b.toNat]? = some k ∧ classifyIn s.params.tolCmp k x = m := by
  simp [classifyAt, map_ok_iff, getBank_ok_iff]

theorem classifyAt_error_iff {s : State} {b : Chan} {x : Nat} {e : Stop} :
    classifyAt s b x = .error e ↔ s.bank[b.toNat]? = none ∧ e = .fault .missingBank := by
  simp [classifyAt, map_error_iff, getBank_error_iff]

theorem classifyBody_ok_iff {s : State} {b : Chan} {x : BitVec 16} {u : State} {v : Word} :
    classifyBody b x s = .ok (u, v) ↔
      b.toNat < s.params.nBank ∧ x.toNat < 2 ^ s.params.sampleW ∧ ∃ k, s.bank[b.toNat]? = some k ∧ u = s
        ∧ v = respMatch (classifyIn s.params.tolCmp k x.toNat) := by
  simp only [classifyBody, bind_ok_iff, pure_ok_iff, checkChannel_ok_iff, checkSample_ok_iff, classifyAt_ok_iff,
    Prod.mk.injEq]
  constructor
  · rintro ⟨-, hb, -, hx, m, ⟨k, hk, rfl⟩, rfl, rfl⟩
    exact ⟨hb, hx, k, hk, rfl, rfl⟩
  · rintro ⟨hb, hx, k, hk, rfl, rfl⟩
    exact ⟨(), hb, (), hx, _, ⟨k, hk, rfl⟩, rfl, rfl⟩

theorem classifyBody_error {s : State} {b : Chan} {x : BitVec 16} {e : Stop} (h : classifyBody b x s = .error e) :
    e = .error .badChannel ∨ e = .error .badOperand
      ∨ (e = .fault .missingBank ∧ b.toNat < s.params.nBank ∧ s.bank[b.toNat]? = none) := by
  simp only [classifyBody, bind_error_iff, pure_error_iff, checkChannel_error_iff, checkChannel_ok_iff,
    checkSample_error_iff, classifyAt_error_iff, and_false, exists_false, or_false] at h
  rcases h with ⟨-, rfl⟩ | ⟨-, hc, ⟨-, rfl⟩ | ⟨-, -, h1, rfl⟩⟩
  · exact .inl rfl
  · exact .inr (.inl rfl)
  · exact .inr (.inr ⟨rfl, hc, h1⟩)

theorem joyClassifyBody_ok_iff {s : State} {x y : BitVec 12} {u : State} {v : Word} :
    joyClassifyBody x y s = .ok (u, v) ↔
      x.toNat < 2 ^ s.params.sampleW ∧ y.toNat < 2 ^ s.params.sampleW
        ∧ ∃ kx ky, s.bank[s.joyCtrl.bankX.toNat]? = some kx ∧ s.bank[s.joyCtrl.bankY.toNat]? = some ky ∧ u = s
          ∧ v = respDirection (joyDirection s.joyCtrl (classifyIn s.params.tolCmp kx x.toNat)
              (classifyIn s.params.tolCmp ky y.toNat)) := by
  simp only [joyClassifyBody, bind_ok_iff, pure_ok_iff, checkSample_ok_iff, classifyAt_ok_iff, Prod.mk.injEq]
  constructor
  · rintro ⟨-, hx, -, hy, mx, ⟨kx, hkx, rfl⟩, my, ⟨ky, hky, rfl⟩, rfl, rfl⟩
    exact ⟨hx, hy, kx, ky, hkx, hky, rfl, rfl⟩
  · rintro ⟨hx, hy, kx, ky, hkx, hky, rfl, rfl⟩
    exact ⟨(), hx, (), hy, _, ⟨kx, hkx, rfl⟩, _, ⟨ky, hky, rfl⟩, rfl, rfl⟩

theorem joyClassifyBody_error {s : State} {x y : BitVec 12} {e : Stop} (h : joyClassifyBody x y s = .error e) :
    e = .error .badOperand
      ∨ (e = .fault .missingBank ∧ (s.bank[s.joyCtrl.bankX.toNat]? = none ∨ s.bank[s.joyCtrl.bankY.toNat]? = none)) := by
  simp only [joyClassifyBody, bind_error_iff, pure_error_iff, checkSample_error_iff, classifyAt_error_iff, and_false,
    exists_false, or_false] at h
  rcases h with ⟨-, rfl⟩ | ⟨-, -, ⟨-, rfl⟩ | ⟨-, -, ⟨h1, rfl⟩ | ⟨-, -, h1, rfl⟩⟩⟩
  · exact .inl rfl
  · exact .inl rfl
  · exact .inr ⟨rfl, .inl h1⟩
  · exact .inr ⟨rfl, .inr h1⟩

theorem regRead_ok_iff {s : State} {a : Addr} {v : Word} :
    regRead s a = .ok v ↔ ∃ r, decodeAddr s.params a = some r ∧ r.read s = .ok v := by
  unfold regRead; split <;> simp_all

theorem regWrite_ok_iff {s t : State} {a : Addr} {v : Word} :
    regWrite s a v = .ok t ↔
      ∃ r, decodeAddr s.params a = some r ∧ r.readOnly = false ∧ r.valid s.params v = true ∧ r.write s v = .ok t := by
  unfold regWrite
  split
  · simp_all
  · rename_i r hr
    cases h1 : r.readOnly <;> cases h2 : r.valid s.params v <;> simp_all

/-- A writable register's write: which one it was, and the whole state after it. -/
theorem regWrite_cases {s t : State} {v : Word} {r : Reg} (h : r.write s v = .ok t) :
    (∃ x, t = { s with timing := x })
      ∨ (r = .joyCtrl ∧ t = { s with joyCtrl := JoyCtrl.ofWord v })
      ∨ (∃ ch q, s.qd[ch.toNat]? = some q ∧
          ((r = .qdCtrl ch ∧ t = s.setQd ch { q with ctrl := QdCtrl.ofWord v })
            ∨ (r = .qdDetents ch ∧ t = s.setQd ch { q with detents := detentsOfWord v })))
      ∨ (∃ b k, s.bank[b.toNat]? = some k ∧
          ((r = .bankCount b ∧ t = s.setBank b { k with count := countOfWord v })
            ∨ (r = .bankTol b ∧ t = s.setBank b { k with tol := levelOfWord v })
            ∨ (∃ i, r = .bankRef b i ∧ t = s.setBank b { k with refs := k.refs.set i.toNat (levelOfWord v) i.isLt }))) := by
  cases r <;> simp only [Reg.write, Except.ok.injEq, map_ok_iff, getQd_ok_iff, getBank_ok_iff, reduceCtorEq] at h
  case holdTime => exact .inl ⟨_, h.symm⟩
  case debounceTime => exact .inl ⟨_, h.symm⟩
  case repeatTime => exact .inl ⟨_, h.symm⟩
  case dashThreshold => exact .inl ⟨_, h.symm⟩
  case dashTime => exact .inl ⟨_, h.symm⟩
  case joyCtrl => exact .inr (.inl ⟨rfl, h.symm⟩)
  case qdCtrl ch =>
    obtain ⟨q, hq, rfl⟩ := h
    exact .inr (.inr (.inl ⟨ch, q, hq, .inl ⟨rfl, rfl⟩⟩))
  case qdDetents ch =>
    obtain ⟨q, hq, rfl⟩ := h
    exact .inr (.inr (.inl ⟨ch, q, hq, .inr ⟨rfl, rfl⟩⟩))
  case bankCount b =>
    obtain ⟨k, hk, rfl⟩ := h
    exact .inr (.inr (.inr ⟨b, k, hk, .inl ⟨rfl, rfl⟩⟩))
  case bankTol b =>
    obtain ⟨k, hk, rfl⟩ := h
    exact .inr (.inr (.inr ⟨b, k, hk, .inr (.inl ⟨rfl, rfl⟩)⟩))
  case bankRef b i =>
    obtain ⟨k, hk, rfl⟩ := h
    exact .inr (.inr (.inr ⟨b, k, hk, .inr (.inr ⟨i, rfl, rfl⟩)⟩))

/-- The body of an instruction: `exec` completes it, whatever the instruction. -/
def body : Instr → State → Except Stop (State × Word)
  | .nop, s => .ok (s, 0)
  | .dbStep ch raw, s => dbStepBody ch raw s
  | .qdStep ch inp, s => qdStepBody ch inp s
  | .qdAngle ch inp, s => qdAngleBody ch inp s
  | .classify b x, s => classifyBody b x s
  | .joyClassify x y, s => joyClassifyBody x y s
  | .cfgRead a, s => (regRead s a).map (fun v => (s, v))
  | .cfgWrite a v, s => (regWrite s a v).map (fun t => (t, 0))

/-- Every instruction is its body completed: the one place where `exec` is unfolded. -/
theorem exec_eq_complete (i : Instr) (s : State) : exec i s = complete s (body i s) := by
  cases i with
  | cfgRead a => simp only [exec, execCfgRead, body]; cases regRead s a <;> rfl
  | cfgWrite a v => simp only [exec, execCfgWrite, body]; cases regWrite s a v <;> rfl
  | _ => rfl

/-- What one instruction can do: run to its end with its writes and RERR 0, or raise an error and write nothing. -/
theorem exec_next_iff {i : Instr} {s t : State} :
    exec i s = .next t ↔
      (∃ u v, body i s = .ok (u, v) ∧ t = respond v u) ∨ (∃ e, body i s = .error (.error e) ∧ t = raise e s) := by
  rw [exec_eq_complete, complete_next_iff]

end Sys2Proof.Machine
end

