-- ==== Sys2Proof/Laws/Classifier.lean ====
section
/-! SUPPORT. The scan of R180 finds the first reference in use within tolerance, and nothing when there is none. -/

namespace Sys2Proof.Machine

/-- `within` over natural numbers is the integer comparison of R180 and R181. -/
theorem within_iff (cmp : TolCmp) (x r tol : Nat) :
    within cmp (absDiff x r) tol = true ↔
      (match cmp with
        | .le => ((x : Int) - (r : Int)).natAbs ≤ tol
        | .lt => ((x : Int) - (r : Int)).natAbs < tol) := by
  cases cmp <;> unfold within <;> rw [decide_eq_true_iff] <;> unfold absDiff <;> simp only <;> omega

/-- The scan answers m exactly when m is the place of the first reference within tolerance. -/
theorem scanRefs_some {cmp : TolCmp} {tol x : Nat} (l : List Level) (n m : Nat) :
    scanRefs cmp tol x l n = some m ↔
      ∃ i, ∃ h : i < l.length, m = n + i ∧ within cmp (absDiff x l[i].toNat) tol = true
        ∧ ∀ j, ∀ _ : j < i, within cmp (absDiff x (l[j]'(by omega)).toNat) tol = false := by
  induction l generalizing n with
  | nil => simp [scanRefs]
  | cons r l ih =>
    simp only [scanRefs]
    split
    · rename_i hw
      constructor
      · intro h
        cases h
        exact ⟨0, by simp, rfl, hw, by simp⟩
      · rintro ⟨i, hi, rfl, h1, h2⟩
        cases i with
        | zero => rfl
        | succ i =>
          have := h2 0 (by omega)
          simp [hw] at this
    · rename_i hw
      rw [ih]
      constructor
      · rintro ⟨i, hi, rfl, h1, h2⟩
        refine ⟨i + 1, by simp; omega, by omega, by simpa using h1, ?_⟩
        intro j hj
        cases j with
        | zero => simpa using hw
        | succ j => simpa using h2 j (by omega)
      · rintro ⟨i, hi, rfl, h1, h2⟩
        cases i with
        | zero => exact (hw h1).elim
        | succ i =>
          refine ⟨i, by simpa using hi, by omega, by simpa using h1, ?_⟩
          intro j hj
          simpa using h2 (j + 1) (by omega)

/-- The scan answers nothing exactly when no reference is within tolerance. -/
theorem scanRefs_none {cmp : TolCmp} {tol x : Nat} (l : List Level) (n : Nat) :
    scanRefs cmp tol x l n = none ↔ ∀ r ∈ l, within cmp (absDiff x r.toNat) tol = false := by
  induction l generalizing n with
  | nil => simp [scanRefs]
  | cons r l ih => simp only [scanRefs]; split <;> simp_all

theorem matchesAt_iff {cmp : TolCmp} {k : Bank} {x : Nat} {i : Fin 16} :
    matchesAt cmp k x i ↔
      i.val < k.count.val ∧ within cmp (absDiff x (k.refs[i.val]'i.isLt).toNat) k.tol.toNat = true := by
  unfold matchesAt
  exact and_congr_right fun _ => (by cases cmp; exacts [(within_iff .le _ _ _).symm, (within_iff .lt _ _ _).symm])

theorem classifyIn_of_firstMatch {cmp : TolCmp} {k : Bank} {x : Nat} {i : Fin 16} (h : firstMatch cmp k x i) :
    classifyIn cmp k x = some (BitVec.ofNat 4 i.val) := by
  obtain ⟨h1, h2⟩ := h
  rw [matchesAt_iff] at h1
  have hk := k.count.isLt
  have : scanRefs cmp k.tol.toNat x (k.refs.toList.take k.count.val) 0 = some i.val := by
    rw [scanRefs_some]
    refine ⟨i.val, by simp; omega, by omega, by simpa using h1.2, ?_⟩
    intro j hj
    have := h2 ⟨j, by omega⟩ hj
    rw [matchesAt_iff] at this
    simp only [Vector.getElem_toList, List.getElem_take]
    cases hb : within cmp (absDiff x (k.refs[j]'(by omega)).toNat) k.tol.toNat
    · rfl
    · exact absurd ⟨by simp only; omega, hb⟩ this
  simp [classifyIn, this]

theorem classifyIn_of_noMatch {cmp : TolCmp} {k : Bank} {x : Nat} (h : noMatch cmp k x) :
    classifyIn cmp k x = none := by
  have : scanRefs cmp k.tol.toNat x (k.refs.toList.take k.count.val) 0 = none := by
    rw [scanRefs_none]
    intro r hr
    obtain ⟨i, hi, rfl⟩ := List.mem_iff_getElem.1 hr
    simp only [List.length_take, Vector.length_toList] at hi
    have := h ⟨i, by omega⟩
    rw [matchesAt_iff] at this
    simp only [Vector.getElem_toList, List.getElem_take]
    cases hb : within cmp (absDiff x (k.refs[i]'(by omega)).toNat) k.tol.toNat
    · rfl
    · exact absurd ⟨by simp only; omega, hb⟩ this
  simp [classifyIn, this]

/-- A sample has a first match or none. -/
theorem firstMatch_or_noMatch (cmp : TolCmp) (k : Bank) (x : Nat) :
    (∃ i, firstMatch cmp k x i) ∨ noMatch cmp k x := by
  cases h : scanRefs cmp k.tol.toNat x (k.refs.toList.take k.count.val) 0 with
  | none =>
    right
    rw [scanRefs_none] at h
    intro i
    rw [matchesAt_iff]
    rintro ⟨h1, h2⟩
    have := h (k.refs[i.val]'i.isLt) (by rw [List.mem_iff_getElem]; exact ⟨i.val, by simp; omega, by simp⟩)
    rw [this] at h2
    cases h2
  | some m =>
    left
    rw [scanRefs_some] at h
    obtain ⟨i, hi, rfl, h1, h2⟩ := h
    simp only [List.length_take, Vector.length_toList] at hi
    refine ⟨⟨i, by omega⟩, matchesAt_iff.2 ⟨by simp; omega, by simpa using h1⟩, ?_⟩
    intro j hj
    rw [matchesAt_iff]
    rintro ⟨h3, h4⟩
    have := h2 j.val hj
    simp only [Vector.getElem_toList, List.getElem_take] at this
    rw [this] at h4
    cases h4

end Sys2Proof.Machine
end

