-- ==== Sys2Proof/Laws/Debounce.lean ====
section
/-! SUPPORT. DB_STEP on a channel that exists with a legal raw code: one poll cycle of the channel's context. -/

namespace Sys2Proof.Machine

theorem respEmission_some (c : Code) : respEmission (some c) = emits c := by
  have h : ∀ c : Code, respEmission (some c) = emits c := by decide +kernel
  exact h c

theorem respEmission_none : respEmission none = quiet := rfl

/-- EV tells an emission from none (R95, R246). -/
theorem emits_ne_quiet (c : Code) : emits c ≠ quiet := by
  have h : ∀ c : Code, emits c ≠ quiet := by decide +kernel
  exact h c

/-- What DB_STEP does once its checks pass. -/
theorem exec_dbStep {s : State} {ch : Chan} {raw : Code} {c : DbCtx} (h : dbReady s ch raw c) :
    exec (.dbStep ch raw) s = .next (s.dbAfter ch (dbPoll s.timing s.now raw c).1
      (respEmission (dbPoll s.timing s.now raw c).2)) := by
  rw [exec_eq_complete, show body (.dbStep ch raw) s = .ok _ from dbStepBody_ok_iff.2 ⟨h.1, h.2.1, c, h.2.2, rfl, rfl⟩]
  rfl

/-- The channel of a DB_STEP that passes its checks has a context to write. -/
theorem dbReady_lt {s : State} {ch : Chan} {raw : Code} {c : DbCtx} (h : dbReady s ch raw c) :
    ch.toNat < s.db.length := (List.getElem?_eq_some_iff.1 h.2.2).1

/-- After one DB_STEP the channel is ready for the next legal raw code, at any later time. -/
theorem dbReady_again {s : State} {ch : Chan} {raw raw' : Code} {c : DbCtx} (c' : DbCtx) (later : Time) (v : Word)
    (h : dbReady s ch raw c) (hr : raw' = noneRaw ∨ raw'.toNat < s.params.nCodes) :
    dbReady { s.dbAfter ch c' v with now := later } ch raw' c' :=
  ⟨h.1, hr, by simp [State.dbAfter, dbReady_lt h]⟩

/-- One poll cycle reads three of the five durations (R131). -/
theorem dbPoll_congr {a b : Timing} {now : Time} {raw : Code} {c : DbCtx} (h1 : b.debounceTime = a.debounceTime)
    (h2 : b.holdTime = a.holdTime) (h3 : b.repeatTime = a.repeatTime) : dbPoll b now raw c = dbPoll a now raw c := by
  unfold dbPoll armDebounce armDown armHeld
  rw [h1, h2, h3]

end Sys2Proof.Machine
end

