-- ==== Sys2Proof/Laws/PerInstr.lean ====
section
/-! SUPPORT. Per-instruction laws. RowMatch: the command word of an instruction matches the instruction's row of the
opcode map under its mask (R82, R91), so it has the row's opcode and none of its reserved bits. -/

namespace Sys2Proof.Laws.RowMatch

open Sys2Proof

/-- The command word has the fixed bits of its row. -/
def Statement (i : Instr) : Prop := encodeCmd i &&& i.row.mask = i.row.value

set_option maxRecDepth 4000

theorem nop : Statement .nop := by unfold Statement; decide

theorem dbStep (ch : Chan) (raw : Code) : Statement (.dbStep ch raw) := by
  simp only [Statement, Instr.row, rowDbStep, encodeCmd]
  ext i hi
  interval_cases i <;> simp

theorem qdStep (ch : Chan) (inp : BitVec 16) : Statement (.qdStep ch inp) := by
  simp only [Statement, Instr.row, rowQdStep, encodeCmd]
  ext i hi
  interval_cases i <;> simp

theorem qdAngle (ch : Chan) (inp : BitVec 16) : Statement (.qdAngle ch inp) := by
  simp only [Statement, Instr.row, rowQdAngle, encodeCmd]
  ext i hi
  interval_cases i <;> simp

theorem classify (b : Chan) (sample : BitVec 16) : Statement (.classify b sample) := by
  simp only [Statement, Instr.row, rowClassify, encodeCmd]
  ext i hi
  interval_cases i <;> simp

theorem joyClassify (x y : BitVec 12) : Statement (.joyClassify x y) := by
  simp only [Statement, Instr.row, rowJoyClassify, encodeCmd]
  ext i hi
  interval_cases i <;> simp

theorem cfgRead (addr : Addr) : Statement (.cfgRead addr) := by
  simp only [Statement, Instr.row, rowCfgRead, encodeCmd]
  ext i hi
  interval_cases i <;> simp

theorem cfgWrite (addr : Addr) (data : Word) : Statement (.cfgWrite addr data) := by
  simp only [Statement, Instr.row, rowCfgWrite, encodeCmd]
  ext i hi
  interval_cases i <;> simp

end Sys2Proof.Laws.RowMatch
end

