-- ==== Sys2Proof/Laws/Decode.lean ====
section
/-! SUPPORT. What decoding a command word can do, said once. -/

namespace Sys2Proof

/-- The decoding of a command word, by its opcode. -/
theorem decode_cases {cmd data : Word} {r : Except DecodeError Instr} (h : decode cmd data = r) :
    (opField cmd = 0 ∧ r = checkRow rowNop cmd .nop)
    ∨ (opField cmd = 1 ∧ r = checkRow rowDbStep cmd (.dbStep (chField cmd) (rawField cmd)))
    ∨ (opField cmd = 2 ∧ r = checkRow rowQdStep cmd (.qdStep (chField cmd) (inField cmd)))
    ∨ (opField cmd = 3 ∧ r = checkRow rowQdAngle cmd (.qdAngle (chField cmd) (inField cmd)))
    ∨ (opField cmd = 4 ∧ r = checkRow rowClassify cmd (.classify (chField cmd) (inField cmd)))
    ∨ (opField cmd = 5 ∧ r = checkRow rowJoyClassify cmd (.joyClassify (xField cmd) (yField cmd)))
    ∨ (opField cmd = 6 ∧ r = checkRow rowCfgRead cmd (.cfgRead (addrField cmd)))
    ∨ (opField cmd = 7 ∧ r = checkRow rowCfgWrite cmd (.cfgWrite (addrField cmd) data))
    ∨ (8 ≤ (opField cmd).toNat ∧ r = .error .illegalOpcode) := by
  subst h
  unfold decode
  rcases h : (opField cmd).toNat with _ | _ | _ | _ | _ | _ | _ | _ | n <;> simp [← BitVec.toNat_inj, h]

/-- A row's check answers the instruction where the fixed bits are the row's. -/
theorem checkRow_ok {r : Row} {cmd : Word} {i j : Instr} (h : checkRow r cmd i = .ok j) :
    cmd &&& r.mask = r.value ∧ i = j := by
  unfold checkRow at h
  split at h <;> simp_all

/-- A row's check raises RESERVED_BITS and nothing else. -/
theorem checkRow_error {r : Row} {cmd : Word} {i : Instr} {e : DecodeError} (h : checkRow r cmd i = .error e) :
    cmd &&& r.mask ≠ r.value ∧ e = .reservedBits := by
  unfold checkRow at h
  split at h <;> simp_all

end Sys2Proof
end

