-- ==== Sys2Proof/Laws/Quadrature.lean ====
section
/-! SUPPORT. The decode step of R153 is the table of R161; what sensing and decoding give in each mode. -/

namespace Sys2Proof.Machine

theorem ofInt_toInt_add (p : Word) (i : Int) : BitVec.ofInt 32 (p.toInt + i) = p + BitVec.ofInt 32 i := by
  rw [BitVec.ofInt_add, BitVec.ofInt_toInt]

/-- The rotation event of a ROT number. -/
def rotOfNat (n : Nat) : Rot := if n = 1 then .up else if n = 2 then .down else .none

/-- On an index of 1..7 the decode step is the cell of the table. -/
theorem decodeRot_eq (q : QdChan) (r : BitVec 2) (h1 : 1 ≤ q.seq.toNat) (h7 : q.seq.toNat ≤ 7) :
    decodeRot q r = (q.afterReading r, rotOfNat (q.rotOf r)) ∧ q.rotOf r ≤ 2 := by
  obtain ⟨seq, pos, prev, ctrl, det⟩ := q
  simp only at h1 h7
  have hs : seq = 1 ∨ seq = 2 ∨ seq = 3 ∨ seq = 4 ∨ seq = 5 ∨ seq = 6 ∨ seq = 7 := by
    revert h1 h7
    revert seq
    decide
  have hr : r = 0 ∨ r = 1 ∨ r = 2 ∨ r = 3 := by
    revert r
    decide
  rcases hs with rfl | rfl | rfl | rfl | rfl | rfl | rfl <;> rcases hr with rfl | rfl | rfl | rfl <;>
    simp [decodeRot, seqT, seqTable, QdChan.afterReading, QdChan.rotOf, decodeCell, ofInt_toInt_add, rotOfNat] <;>
    try bv_omega

theorem respRot_eq {n : Nat} (h : n ≤ 2) : respRot (rotOfNat n) = BitVec.ofNat 32 n := by
  interval_cases n <;> rfl

theorem respAngle_eq {n : Nat} (a : BitVec 16) (h : n ≤ 2) :
    respAngle a (rotOfNat n) = BitVec.ofNat 32 (a.toNat * 65536 + n) := by
  have key : ∀ k : BitVec 2,
      (a.setWidth 32 <<< 16 ||| k.setWidth 32 : Word) = BitVec.ofNat 32 (a.toNat * 65536 + k.toNat) := by
    intro k
    have e : (a.setWidth 32 <<< 16 ||| k.setWidth 32 : Word) = a.setWidth 32 <<< 16 + k.setWidth 32 := by
      rw [BitVec.add_eq_or_of_and_eq_zero]
      ext i hi
      simp only [BitVec.getElem_and, BitVec.getElem_shiftLeft, BitVec.getElem_setWidth, BitVec.getElem_zero]
      by_cases h16 : i < 16
      · simp [h16]
      · simp [BitVec.getLsbD_of_ge k i (by omega)]
    rw [e]
    apply BitVec.eq_of_toNat_eq
    simp [BitVec.toNat_add, BitVec.toNat_shiftLeft, Nat.shiftLeft_eq]
  interval_cases n
  · exact key 0
  · exact key 1
  · exact key 2

/-- The ANGLE field of a QD_ANGLE response. -/
theorem respAngle_angle (y : BitVec 16) (r : Rot) : (respAngle y r).extractLsb' 16 16 = y := by
  have : ∀ c : BitVec 2, ((y.setWidth 32 <<< 16 ||| c.setWidth 32 : Word)).extractLsb' 16 16 = y := by
    intro c
    ext j hj
    have h1 : 16 + j < 32 := by omega
    simp [BitVec.getLsbD_of_ge c (16 + j) (by omega), h1, BitVec.getLsbD_eq_getElem hj]
  exact this _

theorem digitalReading_eq {q : QdChan} {inp : BitVec 16} {r : BitVec 2} (h : digitalInput q inp r) :
    digitalReading q.ctrl.invert inp = r := by
  obtain ⟨-, -, rfl⟩ := h
  unfold digitalReading
  split <;> (ext i hi; simp) <;> interval_cases i <;> simp

/-- Sensing and decoding in digital mode. -/
theorem quadStep_digital {s : State} {ch : Chan} {inp : BitVec 16} {q : QdChan} {r : BitVec 2} (h : qdReady s ch q)
    (hd : digitalInput q inp r) : quadStep ch inp s = .ok (decodeRot q r) :=
  quadStep_ok_iff.2 ⟨h.1, q, (q, r), h.2.1, sense_ok_iff.2 (.inl ⟨hd.1, hd.2.1, by rw [digitalReading_eq hd]⟩),
    h.2.2.1, h.2.2.2, rfl⟩

/-- Sensing and decoding in analog mode, with a match. -/
theorem quadStep_match {s : State} {ch : Chan} {inp : BitVec 16} {q : QdChan} {k : Bank} {i : Fin 16}
    (h : qdReady s ch q) (ha : analogInput s q inp k) (hf : firstMatch s.params.tolCmp k inp.toNat i) :
    quadStep ch inp s = .ok (decodeRot { q with prev := BitVec.ofNat 2 i.val } (BitVec.ofNat 2 i.val)) := by
  refine quadStep_ok_iff.2 ⟨h.1, q, ({ q with prev := BitVec.ofNat 2 i.val }, BitVec.ofNat 2 i.val), h.2.1,
    sense_ok_iff.2 (.inr ⟨ha.1, ha.2.1, k, ha.2.2.1, ha.2.2.2, ?_⟩), h.2.2.1, h.2.2.2, rfl⟩
  have : (BitVec.ofNat 4 i.val).extractLsb' 0 2 = BitVec.ofNat 2 i.val := by
    clear hf
    revert i
    decide
  rw [classifyIn_of_firstMatch hf]
  simp only [analogReading, this]

/-- Sensing and decoding in analog mode, with no match: the previous valid reading. -/
theorem quadStep_noMatch {s : State} {ch : Chan} {inp : BitVec 16} {q : QdChan} {k : Bank} (h : qdReady s ch q)
    (ha : analogInput s q inp k) (hn : noMatch s.params.tolCmp k inp.toNat) :
    quadStep ch inp s = .ok (decodeRot q q.prev) := by
  refine quadStep_ok_iff.2 ⟨h.1, q, (q, q.prev), h.2.1,
    sense_ok_iff.2 (.inr ⟨ha.1, ha.2.1, k, ha.2.2.1, ha.2.2.2, ?_⟩), h.2.2.1, h.2.2.2, rfl⟩
  rw [classifyIn_of_noMatch hn]
  rfl

/-- QD_STEP and QD_ANGLE that run to their end: the channel they found and the reading they decoded. -/
theorem quadStep_ok {s : State} {ch : Chan} {inp : BitVec 16} {r : QdChan × Rot} (h : quadStep ch inp s = .ok r) :
    ∃ q x p, s.qd[ch.toNat]? = some q ∧ 1 ≤ q.seq.toNat ∧ q.seq.toNat ≤ 7 ∧ r = decodeRot { q with prev := p } x
      ∧ (q.ctrl.mode = .digital → p = q.prev) := by
  obtain ⟨-, q, y, hq, hy, h1, h7, rfl⟩ := quadStep_ok_iff.1 h
  rcases sense_ok_iff.1 hy with ⟨hm, -, rfl⟩ | ⟨hm, -, k, -, -, rfl⟩
  · exact ⟨q, _, q.prev, hq, h1, h7, rfl, fun _ => rfl⟩
  · cases hc : classifyIn s.params.tolCmp k inp.toNat with
    | some i =>
      rw [hc] at h1 h7
      exact ⟨q, _, _, hq, h1, h7, rfl, fun h => by rw [hm] at h; cases h⟩
    | none =>
      rw [hc] at h1 h7
      exact ⟨q, _, q.prev, hq, h1, h7, rfl, fun _ => rfl⟩

/-- The decode step touches seq and pos only. -/
theorem decodeRot_fields (q : QdChan) (r : BitVec 2) :
    (decodeRot q r).1.prev = q.prev ∧ (decodeRot q r).1.ctrl = q.ctrl ∧ (decodeRot q r).1.detents = q.detents := by
  unfold decodeRot
  repeat' split
  all_goals exact ⟨rfl, rfl, rfl⟩

end Sys2Proof.Machine
end

