-- ==== Sys2Proof/Laws/RegMap.lean ====
section
/-! SUPPORT. The register map: which register an address decodes to, and that writing a packed register and reading it
back gives the word written. -/

namespace Sys2Proof.Machine

theorem decodeLow_some {a : Nat} {r : Reg} (h : decodeLow a = some r) :
    (a = 0 ∧ r = .holdTime) ∨ (a = 1 ∧ r = .debounceTime) ∨ (a = 2 ∧ r = .repeatTime) ∨ (a = 3 ∧ r = .dashThreshold)
      ∨ (a = 4 ∧ r = .dashTime) ∨ (a = 8 ∧ r = .err) ∨ (a = 9 ∧ r = .joyCtrl) := by
  unfold decodeLow at h
  split at h <;> simp_all

theorem decodeDb_some {ch : Chan} {k : Nat} {r : Reg} (h : decodeDb ch k = some r) :
    (k = 0 ∧ r = .dbState ch) ∨ (k = 1 ∧ r = .dbTracked ch) ∨ (k = 2 ∧ r = .dbT0 ch) := by
  unfold decodeDb at h
  split at h <;> simp_all

theorem decodeQd_some {ch : Chan} {k : Nat} {r : Reg} (h : decodeQd ch k = some r) :
    (k = 0 ∧ r = .qdCtrl ch) ∨ (k = 1 ∧ r = .qdDetents ch) ∨ (k = 2 ∧ r = .qdSeq ch) ∨ (k = 3 ∧ r = .qdPos ch)
      ∨ (k = 4 ∧ r = .qdPrev ch) := by
  unfold decodeQd at h
  split at h <;> simp_all

theorem decodeBank_some {b : Chan} {k : Nat} {r : Reg} (h : decodeBank b k = some r) :
    (k = 0 ∧ r = .bankCount b) ∨ (k = 1 ∧ r = .bankTol b) ∨ (16 ≤ k ∧ r = .bankRef b (BitVec.ofNat 4 (k - 16))) := by
  unfold decodeBank at h
  split at h <;> [skip; split at h <;> [skip; split at h]] <;> simp_all

/-- A register's channel or bank number is below the number of them in the instance. -/
def Reg.inInstance (p : Params) : Reg → Prop
  | .dbState ch | .dbTracked ch | .dbT0 ch => ch.toNat < p.nDb
  | .qdCtrl ch | .qdDetents ch | .qdSeq ch | .qdPos ch | .qdPrev ch => ch.toNat < p.nQd
  | .bankCount b | .bankTol b | .bankRef b _ => b.toNat < p.nBank
  | _ => True

/-- An address decodes to a register of the instance whose address it is. -/
theorem decodeAddr_some {p : Params} {a : Addr} {r : Reg} (h : decodeAddr p a = some r) :
    r.addr = a ∧ r.inInstance p := by
  unfold decodeAddr at h
  have ha := a.isLt
  suffices hs : r.addr.toNat = a.toNat ∧ r.inInstance p from ⟨BitVec.eq_of_toNat_eq hs.1, hs.2⟩
  simp only at h
  split at h
  · rcases decodeLow_some h with ⟨e, rfl⟩ | ⟨e, rfl⟩ | ⟨e, rfl⟩ | ⟨e, rfl⟩ | ⟨e, rfl⟩ | ⟨e, rfl⟩ | ⟨e, rfl⟩ <;>
      rw [e] <;> exact ⟨rfl, trivial⟩
  · split at h
    · split at h <;> [skip; cases h]
      rcases decodeDb_some h with ⟨e, rfl⟩ | ⟨e, rfl⟩ | ⟨e, rfl⟩ <;>
        simp only [Reg.addr, dbAddr, Reg.inInstance, BitVec.toNat_ofNat] <;> constructor <;> omega
    · split at h
      · split at h <;> [skip; cases h]
        rcases decodeQd_some h with ⟨e, rfl⟩ | ⟨e, rfl⟩ | ⟨e, rfl⟩ | ⟨e, rfl⟩ | ⟨e, rfl⟩ <;>
          simp only [Reg.addr, qdAddr, Reg.inInstance, BitVec.toNat_ofNat] <;> constructor <;> omega
      · split at h
        · split at h <;> [skip; cases h]
          rcases decodeBank_some h with ⟨e, rfl⟩ | ⟨e, rfl⟩ | ⟨e, rfl⟩ <;>
            simp only [Reg.addr, bankAddr, Reg.inInstance, BitVec.toNat_ofNat] <;> constructor <;> omega
        · cases h

/-- The addresses of a debounce channel that exists. -/
theorem decodeAddr_db {p : Params} {ch k : Nat} (hn : p.nDb ≤ 16) (hc : ch < p.nDb) (hk : k < 4) :
    decodeAddr p (BitVec.ofNat 12 (0x100 + 4 * ch + k)) = decodeDb (BitVec.ofNat 4 ch) k := by
  have e : (BitVec.ofNat 12 (0x100 + 4 * ch + k)).toNat = 0x100 + 4 * ch + k := by
    rw [BitVec.toNat_ofNat]; omega
  simp only [decodeAddr, e]
  rw [if_neg (by omega), if_pos (by omega), if_pos (by omega)]
  congr 1 <;> [congr 1; skip] <;> omega

/-- The addresses of a quadrature channel that exists. -/
theorem decodeAddr_qd {p : Params} {ch k : Nat} (hn : p.nQd ≤ 16) (hc : ch < p.nQd) (hk : k < 8) :
    decodeAddr p (BitVec.ofNat 12 (0x200 + 8 * ch + k)) = decodeQd (BitVec.ofNat 4 ch) k := by
  have e : (BitVec.ofNat 12 (0x200 + 8 * ch + k)).toNat = 0x200 + 8 * ch + k := by
    rw [BitVec.toNat_ofNat]; omega
  simp only [decodeAddr, e]
  rw [if_neg (by omega), if_neg (by omega), if_pos (by omega), if_pos (by omega)]
  congr 1 <;> [congr 1; skip] <;> omega

/-- The addresses of a bank that exists. -/
theorem decodeAddr_bank {p : Params} {b k : Nat} (hn : p.nBank ≤ 16) (hc : b < p.nBank) (hk : k < 32) :
    decodeAddr p (BitVec.ofNat 12 (0x400 + 32 * b + k)) = decodeBank (BitVec.ofNat 4 b) k := by
  have e : (BitVec.ofNat 12 (0x400 + 32 * b + k)).toNat = 0x400 + 32 * b + k := by
    rw [BitVec.toNat_ofNat]; omega
  simp only [decodeAddr, e]
  rw [if_neg (by omega), if_neg (by omega), if_neg (by omega), if_pos (by omega), if_pos (by omega)]
  congr 1 <;> [congr 1; skip] <;> omega

/-- A word that passes JOY_CTRL's check is read back as it was written. -/
theorem joyCtrl_readBack {p : Params} {v : Word} (h : validJoyCtrl p v = true) : (JoyCtrl.ofWord v).toWord = v := by
  simp only [validJoyCtrl, Bool.and_eq_true, beq_iff_eq, decide_eq_true_eq] at h
  have h1 := h.1.1
  simp only [JoyCtrl.toWord, JoyCtrl.ofWord]
  have hb : ∀ i, i < 16 → v.getLsbD (16 + i) = false := by
    intro i hi
    have := congrArg (fun x => x.getLsbD i) h1
    simpa [hi] using this
  ext i hi
  have h' := hb (i - 16)
  interval_cases i <;> simp at * <;> simp [*]

/-- A word that passes QD_CTRL's check is read back as it was written. -/
theorem qdCtrl_readBack {p : Params} {v : Word} (h : validQdCtrl p v = true) : (QdCtrl.ofWord v).toWord = v := by
  simp only [validQdCtrl, Bool.and_eq_true, beq_iff_eq, decide_eq_true_eq] at h
  obtain ⟨⟨h1, h2⟩, -⟩ := h
  have hb : ∀ i, i < 24 → v.getLsbD (8 + i) = false := by
    intro i hi
    have := congrArg (fun x => x.getLsbD i) h1
    simpa [hi] using this
  have hb2 : ∀ i, i < 2 → v.getLsbD (2 + i) = false := by
    intro i hi
    have := congrArg (fun x => x.getLsbD i) h2
    simpa [hi] using this
  have e2 := hb2 0 (by omega)
  have e3 := hb2 1 (by omega)
  have hm : (if v.getLsbD 0 = true then SenseMode.analog else SenseMode.digital).bit = BitVec.ofBool (v.getLsbD 0) := by
    cases v.getLsbD 0 <;> rfl
  simp only [QdCtrl.toWord, QdCtrl.ofWord, hm]
  clear hm h1 h2 hb2
  apply BitVec.eq_of_getLsbD_eq
  intro i hi
  by_cases h8 : 8 ≤ i
  · have := hb (i - 8) (by omega)
    rw [show 8 + (i - 8) = i by omega] at this
    rw [this]
    clear this hb e2 e3
    interval_cases i <;> simp
  · clear hb
    interval_cases i <;> simp_all

/-- A word that passes QD_DETENTS's check is read back as it was written. -/
theorem detents_readBack {v : Word} (h : validQdDetents v = true) : (detentsOfWord v).setWidth 32 = v := by
  simp only [validQdDetents, Bool.and_eq_true, beq_iff_eq, decide_eq_true_eq] at h
  apply BitVec.eq_of_toNat_eq
  have h1 : v.toNat / 2 ^ 16 % 2 ^ 16 = 0 := by
    have := congrArg BitVec.toNat h.1
    rwa [BitVec.extractLsb'_toNat, Nat.shiftRight_eq_div_pow] at this
  have h2 := v.isLt
  simp only [detentsOfWord, BitVec.toNat_setWidth, BitVec.extractLsb'_toNat, Nat.shiftRight_eq_div_pow]
  omega

/-- A word that passes BANK_COUNT's check is read back as it was written. -/
theorem count_readBack {v : Word} (h : validBankCount v = true) : BitVec.ofNat 32 (countOfWord v).val = v := by
  simp only [validBankCount, decide_eq_true_eq] at h
  apply BitVec.eq_of_toNat_eq
  have := v.isLt
  simp only [countOfWord, Fin.ofNat, BitVec.toNat_ofNat]
  omega

theorem pow_sampleW_le {p : Params} (h : p.sampleW ≤ 12) : 2 ^ p.sampleW ≤ 4096 :=
  Nat.pow_le_pow_right (n := 2) (by omega) h

/-- A word that passes the check of BANK_TOL and BANK_REF is the value of the level it stores. -/
theorem levelOfWord_toNat {p : Params} {v : Word} (hs : p.sampleW ≤ 12) (h : validLevel p v = true) :
    (levelOfWord v).toNat = v.toNat := by
  simp only [validLevel, decide_eq_true_eq] at h
  have := pow_sampleW_le hs
  simp only [levelOfWord, BitVec.extractLsb'_toNat, Nat.shiftRight_zero]
  omega

theorem level_readBack {p : Params} {v : Word} (hs : p.sampleW ≤ 12) (h : validLevel p v = true) :
    (levelOfWord v).setWidth 32 = v := by
  apply BitVec.eq_of_toNat_eq
  have := (levelOfWord v).isLt
  simp only [BitVec.toNat_setWidth, levelOfWord_toNat hs h]
  omega

/-- The sixteen reference slots of a construction value, one by one. -/
theorem refsOfWords_get (ws : List Word) (n : Nat) (h : n < 16) :
    (refsOfWords ws)[n] = levelOfWord (ws.getD n 0) := by
  interval_cases n <;> rfl

end Sys2Proof.Machine
end

