-- ==== Sys2Proof/Laws/Invariant.lean ====
section
/-! SUPPORT. The parts of the invariant: what a well-formed instance gives, and that each write of a command keeps
the part it writes. -/

namespace Sys2Proof.Machine

theorem wf_ranges {p : Params} (h : p.wf = true) :
    (1 ≤ p.nCodes ∧ p.nCodes ≤ 255) ∧ (1 ≤ p.nDb ∧ p.nDb ≤ 16) ∧ p.nQd ≤ 16 ∧ (1 ≤ p.nBank ∧ p.nBank ≤ 16)
      ∧ (1 ≤ p.sampleW ∧ p.sampleW ≤ 12) := by
  simp only [Params.wf, Params.rangesOk, Bool.and_eq_true, decide_eq_true_eq] at h
  obtain ⟨⟨⟨⟨⟨⟨h1, h2⟩, h3⟩, h4⟩, h5⟩, -⟩, -⟩ := h
  exact ⟨h1, h2, h3, h4, h5⟩

theorem joyCtrl_ok {p : Params} {v : Word} (h : validJoyCtrl p v = true) : (JoyCtrl.ofWord v).ok p := by
  simp only [validJoyCtrl, Bool.and_eq_true, beq_iff_eq, decide_eq_true_eq] at h
  exact ⟨h.1.2, h.2⟩

theorem qdCtrl_ok {p : Params} {v : Word} (h : validQdCtrl p v = true) : (QdCtrl.ofWord v).bank.toNat < p.nBank := by
  simp only [validQdCtrl, Bool.and_eq_true, beq_iff_eq, decide_eq_true_eq] at h
  exact h.2

theorem detents_ok {v : Word} (h : validQdDetents v = true) : detentsOfWord v ≠ 0 := by
  simp only [validQdDetents, Bool.and_eq_true, beq_iff_eq, decide_eq_true_eq] at h
  intro h'
  have := congrArg BitVec.toNat h'
  simp only [detentsOfWord] at this
  rw [this] at h
  simp at h

theorem level_ok {p : Params} {v : Word} (hs : p.sampleW ≤ 12) (h : validLevel p v = true) :
    (levelOfWord v).toNat < 2 ^ p.sampleW := by
  rw [levelOfWord_toNat hs h]
  simpa [validLevel] using h

/-- One poll cycle with a legal raw code keeps a debounce context legal (R25, R26). -/
theorem dbPoll_ok {p : Params} {timing : Timing} {now : Time} {raw : Code} {c : DbCtx} (hn : p.nCodes ≤ 255)
    (hraw : raw = noneRaw ∨ raw.toNat < p.nCodes) (h : c.ok p) : (dbPoll timing now raw c).1.ok p := by
  have hne : raw.toNat < p.nCodes → raw ≠ noneRaw := by
    intro h1 h2
    rw [h2] at h1
    simp [noneRaw] at h1
    omega
  obtain ⟨st, tr, t0⟩ := c
  obtain ⟨h1, h2, h3⟩ := h
  unfold dbPoll
  cases st <;> simp only [armUp, armDebounce, armDown, armReleased, armHeld, armPressed] <;> (repeat' split) <;>
    simp_all [DbCtx.ok]

/-- One decode step keeps the index in 1..7 (R29). -/
theorem decodeRot_seq {q : QdChan} {r : BitVec 2} (h : 1 ≤ q.seq.toNat ∧ q.seq.toNat ≤ 7) :
    1 ≤ (decodeRot q r).1.seq.toNat ∧ (decodeRot q r).1.seq.toNat ≤ 7 := by
  have := q.seq.isLt
  unfold decodeRot
  (repeat' split) <;> simp <;> omega

/-- Raising an error keeps ERR's reserved bits 0 (R37). -/
theorem errBit_ok (e : ErrCode) (x : Word) (h : x &&& ~~~errMask = 0) : (x ||| e.bit) &&& ~~~errMask = 0 := by
  have h1 : e.bit &&& ~~~errMask = 0 := by cases e <;> decide
  have h2 : (x ||| e.bit) &&& ~~~errMask = (x &&& ~~~errMask) ||| (e.bit &&& ~~~errMask) := by
    ext i hi
    simp [Bool.and_or_distrib_right]
  rw [h2, h, h1]
  rfl

theorem invariant_respond {s : State} {v : Word} (h : Invariant s) : Invariant (respond v s) :=
  ⟨h.params, h.dbCount, h.qdCount, h.bankCount, h.db, h.qd, h.bank, h.joy, h.err⟩

/-- The ports are no part of the invariant. -/
theorem invariant_ports {s : State} {now : Time} {inputs : List Input} {response : Option Response}
    (h : Invariant s) : Invariant { s with now := now, inputs := inputs, response := response } :=
  ⟨h.params, h.dbCount, h.qdCount, h.bankCount, h.db, h.qd, h.bank, h.joy, h.err⟩

theorem invariant_setDb {s : State} {ch : Chan} {c : DbCtx} (h : Invariant s) (hc : c.ok s.params) :
    Invariant (s.setDb ch c) :=
  ⟨h.params, by simp [h.dbCount], h.qdCount, h.bankCount,
    fun x hx => (List.mem_or_eq_of_mem_set hx).elim (h.db x) (fun e => e ▸ hc), h.qd, h.bank, h.joy, h.err⟩

theorem invariant_setQd {s : State} {ch : Chan} {q : QdChan} (h : Invariant s) (hq : q.ok s.params) :
    Invariant (s.setQd ch q) :=
  ⟨h.params, h.dbCount, by simp [h.qdCount], h.bankCount, h.db,
    fun x hx => (List.mem_or_eq_of_mem_set hx).elim (h.qd x) (fun e => e ▸ hq), h.bank, h.joy, h.err⟩

theorem invariant_setBank {s : State} {b : Chan} {k : Bank} (h : Invariant s) (hk : k.ok s.params) :
    Invariant (s.setBank b k) :=
  ⟨h.params, h.dbCount, h.qdCount, by simp [h.bankCount], h.db, h.qd,
    fun x hx => (List.mem_or_eq_of_mem_set hx).elim (h.bank x) (fun e => e ▸ hk), h.joy, h.err⟩

end Sys2Proof.Machine
end

