-- ==== Sys2Proof/Tests/Slice0.lean ====
section
/-! SUPPORT. The model's own tests. Expected results are those of spec/95_test_vectors.md (the id stands in each
docstring) or of the bit layouts of spec/30_encoding.md. A `witness_` theorem shows a state and operands that meet
the hypotheses of the obligation it is named after, clause by clause, at the ends of the ranges. -/

namespace Sys2Proof.Tests

open Sys2Proof Sys2Proof.Machine

/-! ## Helpers -/

/-- A bank with these references, the rest 0. -/
def bankOf (count : Fin 17) (tol : Level) (refs : List Word) : Bank := ⟨count, tol, refsOfWords refs⟩

/-- The analog reference bank of the QD vectors. -/
def quadBank : Bank := bankOf 4 40 [0, 300, 600, 900]

/-- The bank of the J vectors. -/
def joyBank : Bank := bankOf 3 50 [0, 512, 1023]

/-- The test instance with the durations of section 2.1 and c in debounce channel 0. -/
def dbState (c : DbCtx) (now : Time) : State :=
  { State.reset with timing := ⟨100, 25, 40, 0, 0⟩, db := [c, DbCtx.atReset], now := now }

/-- A quadrature channel (seq, pos, prev) with QD_CTRL and 24 detents. -/
def quad (seq : BitVec 4) (pos : Word) (prev : BitVec 2) (mode : SenseMode) (invert : Bool) : QdChan :=
  ⟨seq, pos, prev, ⟨mode, invert, 0⟩, 24⟩

/-- The test instance with q in quadrature channel 0 and the two reference banks. -/
def qdState (q : QdChan) : State :=
  { State.reset with qd := [q, QdChan.atReset Params.testInstance 1], bank := [quadBank, joyBank] }

/-- The test instance with JOY_CTRL on bank 1 and its centers at 1. -/
def joyState : State := { qdState (quad 4 0 3 .digital false) with joyCtrl := ⟨1, 1, 1, 1⟩ }

/-- A state of the test instance that is not the state after reset: every kind of register has been written. -/
def demo : State :=
  { joyState with
    timing := ⟨100, 25, 40, 7, 8⟩
    err := 0x10
    db := [⟨.held, 3, 1125⟩, ⟨.debounce, 15, 1100⟩]
    qd := [quad 4 0 3 .analog false, ⟨7, 0x7FFFFFFF, 1, ⟨.digital, true, 1⟩, 1⟩]
    now := 1130
    response := some ⟨0x80000003, 0⟩ }

/-- One step on a command from state s. -/
def stepWord (cmd data : Word) (now : Time) (s : State) : Option State :=
  match step { s with inputs := [.command cmd data now] } with
  | .next t => some t
  | .fault _ => none
  | .refused _ => none

/-- RESP and RERR of one step on a command. -/
def respOf (cmd data : Word) (now : Time) (s : State) : Option Response := (stepWord cmd data now s).bind (·.response)

/-- Debounce channel 0 after one step on a command. -/
def dbOf (cmd data : Word) (now : Time) (s : State) : Option DbCtx := (stepWord cmd data now s).bind (·.db[0]?)

/-- (seq, pos, prev) of quadrature channel 0 after one step on a command. -/
def qdOf (cmd data : Word) (now : Time) (s : State) : Option (BitVec 4 × Word × BitVec 2) :=
  (stepWord cmd data now s).bind (fun t => (t.qd[0]?).map (fun q => (q.seq, q.pos, q.prev)))

/-! ## Well-formedness: each check of R6, R7, R206 and R247 refuses a configuration that fails it -/

abbrev good : Params := Params.testInstance

theorem test_wf_good : good.wf = true := by decide
theorem test_wf_nCodes : ({ good with nCodes := 256 } : Params).wf = false := by decide
theorem test_wf_nDb : ({ good with nDb := 0 } : Params).wf = false := by decide
theorem test_wf_nQd : ({ good with nQd := 17 } : Params).wf = false := by decide
theorem test_wf_nBank : ({ good with nBank := 17 } : Params).wf = false := by decide
theorem test_wf_sampleW : ({ good with sampleW := 13 } : Params).wf = false := by decide
theorem test_wf_joyCtrl : ({ good with rstJoyCtrl := 0x20 } : Params).wf = false := by decide
theorem test_wf_qdCtrlCount : ({ good with rstQdCtrl := [0] } : Params).wf = false := by decide
theorem test_wf_qdCtrl : ({ good with rstQdCtrl := [0, 4] } : Params).wf = false := by decide
theorem test_wf_qdDetentsCount : ({ good with rstQdDetents := [24] } : Params).wf = false := by decide
theorem test_wf_qdDetents : ({ good with rstQdDetents := [24, 0] } : Params).wf = false := by decide
theorem test_wf_bankCountCount : ({ good with rstBankCount := [0] } : Params).wf = false := by decide
theorem test_wf_bankCount : ({ good with rstBankCount := [17, 0] } : Params).wf = false := by decide
theorem test_wf_bankTolCount : ({ good with rstBankTol := [0] } : Params).wf = false := by decide
theorem test_wf_bankTol : ({ good with rstBankTol := [1024, 0] } : Params).wf = false := by decide
theorem test_wf_bankRefCount : ({ good with rstBankRef := [[]] } : Params).wf = false := by decide
theorem test_wf_bankRefLength : ({ good with rstBankRef := [[], []] } : Params).wf = false := by decide
theorem test_wf_bankRef :
    ({ good with rstBankRef := [List.replicate 16 1024, List.replicate 16 0] } : Params).wf = false := by decide
theorem test_wf_keymapCount : ({ good with keymap := [1] } : Params).wf = false := by decide
/-- W10. -/
theorem test_wf_keymap : ({ good with keymap := List.replicate 16 0 } : Params).wf = false := by decide
theorem test_wf_rotmapUp : ({ good with rotmapUp := 0 } : Params).wf = false := by decide
theorem test_wf_rotmapDown : ({ good with rotmapDown := 0 } : Params).wf = false := by decide
/-- The largest and smallest values the checks allow. -/
theorem test_wf_bounds :
    ({ good with nCodes := 255, keymap := List.replicate 255 1, sampleW := 12, rstBankCount := [16, 16],
                 rstBankTol := [4095, 0], rstQdCtrl := [0x13, 0], rstQdDetents := [1, 65535],
                 rstJoyCtrl := 0xFF11 } : Params).wf = true := by
  decide +kernel

/-! ## Decoding: a word of each command, bit by bit from the formats of R83 to R88 -/

theorem test_decode_nop : decode 0b00000000000000000000000000000000 7 = .ok .nop := by decide
theorem test_decode_dbStep : decode 0b00010101000000000000000010100011 7 = .ok (.dbStep 5 0xA3) := by decide
theorem test_decode_qdStep : decode 0b00101001000000001000000000000110 7 = .ok (.qdStep 9 0x8006) := by decide
theorem test_decode_qdAngle : decode 0b00111010000000000100000000000101 7 = .ok (.qdAngle 10 0x4005) := by decide
theorem test_decode_classify : decode 0b01001100000000001110000000000001 7 = .ok (.classify 12 0xE001) := by decide
theorem test_decode_joyClassify :
    decode 0b01010000101000000001110000000011 7 = .ok (.joyClassify 0xA01 0xC03) := by decide
theorem test_decode_cfgRead : decode 0b01100000000000000000010000010001 7 = .ok (.cfgRead 0x411) := by decide
theorem test_decode_cfgWrite : decode 0b01110000000000000000001000000001 7 = .ok (.cfgWrite 0x201 7) := by decide
/-- E-2, E-5, E-10. -/
theorem test_decode_refused :
    decode 0x00000001 0 = .error .reservedBits ∧ decode 0x1F00FF00 0 = .error .reservedBits
      ∧ decode 0x9000000F 0 = .error .illegalOpcode := by decide
/-- No word matches two rows. -/
theorem test_rows_disjoint :
    opcodeMap.Pairwise (fun a b => a.value &&& b.mask ≠ b.value ∧ b.value &&& a.mask ≠ a.value) := by decide
/-- The table's numbering: CMD in bits 31..0, DATA in bits 63..32, the bits above nbits 0. -/
theorem test_decodeTableWord : decodeTableWord 32 0x12000003 = some (.dbStep 2 3)
    ∧ decodeTableWord 64 0x2870000000 = some (.cfgWrite 0 40) ∧ decodeTableWord 32 0x2870000000 = some (.cfgWrite 0 0)
    ∧ decodeTableWord 32 0x80000000 = none := by decide
/-- The first step after reset runs the word it is given. -/
theorem test_withFetchWord : step (State.reset.withFetchWord 32 0x60000101) = exec (.cfgRead 0x101) State.reset := by
  rfl

/-! ## One step: vectors -/

/-- CF-15. -/
theorem test_nop : respOf 0x00000000 0 0 State.reset = some ⟨0, 0⟩ := by decide
/-- DB-19: the elapsed time wraps. -/
theorem test_dbStep_confirm :
    respOf 0x10000003 0 9 (dbState ⟨.debounce, 3, 0xFFFFFFF0⟩ 0) = some ⟨0x80000003, 0⟩
      ∧ dbOf 0x10000003 0 9 (dbState ⟨.debounce, 3, 0xFFFFFFF0⟩ 0) = some ⟨.down, 3, 9⟩ := by decide
/-- DB-18: another code releases a held one, and the old code is emitted. -/
theorem test_dbStep_release :
    respOf 0x10000004 0 1130 (dbState ⟨.held, 3, 1125⟩ 0) = some ⟨0x80000003, 0⟩
      ∧ dbOf 0x10000004 0 1130 (dbState ⟨.held, 3, 1125⟩ 0) = some ⟨.released, 3, 1130⟩ := by decide
/-- QD-10: the counter wraps on Up. -/
theorem test_qdStep_up :
    respOf 0x20000003 0 0 (qdState (quad 7 0x7FFFFFFF 3 .digital false)) = some ⟨1, 0⟩
      ∧ qdOf 0x20000003 0 0 (qdState (quad 7 0x7FFFFFFF 3 .digital false)) = some (4, 0x80000000, 3) := by decide
/-- QD-17: a match sets prev though the decode step rejects it. -/
theorem test_qdStep_analog :
    respOf 0x20000014 0 0 (qdState (quad 4 0 3 .analog false)) = some ⟨0, 0⟩
      ∧ qdOf 0x20000014 0 0 (qdState (quad 4 0 3 .analog false)) = some (4, 0, 0) := by decide +kernel
/-- A-6: the angle of the most negative counter. -/
theorem test_qdAngle_negative :
    respOf 0x30000003 0 0 (qdState (quad 4 0x80000000 3 .digital false)) = some ⟨0x00100000, 0⟩ := by decide
/-- A-11: Down and the angle after it. -/
theorem test_qdAngle_down :
    respOf 0x30000003 0 0 (qdState (quad 1 0 3 .digital false)) = some ⟨0x00170002, 0⟩ := by decide
/-- CL-6: the first index wins though the second is nearer. -/
theorem test_classify_first :
    respOf 0x40000076 0 0 { State.reset with bank := [bankOf 2 30 [100, 120], joyBank] } = some ⟨0x80000000, 0⟩ := by
  decide +kernel
/-- CL-2: a difference of exactly the tolerance, under LE and under LT. -/
theorem test_classify_bound :
    let s : State := { State.reset with bank := [quadBank, bankOf 4 30 [0, 340, 680, 1020]] }
    respOf 0x41000172 0 0 s = some ⟨0x80000001, 0⟩
      ∧ respOf 0x41000172 0 0 { s with params := { good with tolCmp := .lt } } = some ⟨0, 0⟩ := by decide +kernel
/-- J-1. -/
theorem test_joyClassify_direction : respOf 0x501FE3E8 0 0 joyState = some ⟨0x80000021, 0⟩ := by decide +kernel
/-- J-2 and J-5: both axes at their center, and one. -/
theorem test_joyClassify_center :
    respOf 0x501FE203 0 0 joyState = some ⟨0, 0⟩ ∧ respOf 0x50200000 0 0 joyState = some ⟨0x80000001, 0⟩ := by
  decide +kernel
/-- CF-1, CF-16, CF-17: three contexts after reset. -/
theorem test_cfgRead_reset :
    respOf 0x60000101 0 0 State.reset = some ⟨0xFF, 0⟩ ∧ respOf 0x6000020A 0 0 State.reset = some ⟨4, 0⟩
      ∧ respOf 0x6000020C 0 0 State.reset = some ⟨3, 0⟩ := by decide
/-- CF-10: the holes of the map. -/
theorem test_cfgRead_holes :
    respOf 0x60000103 0 0 State.reset = some ⟨0, 5⟩ ∧ respOf 0x60000108 0 0 State.reset = some ⟨0, 5⟩
      ∧ respOf 0x60000402 0 0 State.reset = some ⟨0, 5⟩ ∧ respOf 0x60000420 0 0 State.reset = some ⟨0, 0⟩
      ∧ respOf 0x60000440 0 0 State.reset = some ⟨0, 5⟩ := by decide
/-- CF-5: a reserved bit, a bank that does not exist, and a legal value. -/
theorem test_cfgWrite_qdCtrl :
    respOf 0x70000200 0x4 0 State.reset = some ⟨0, 7⟩ ∧ respOf 0x70000200 0x20 0 State.reset = some ⟨0, 7⟩
      ∧ respOf 0x70000200 0x13 0 State.reset = some ⟨0, 0⟩
      ∧ ((stepWord 0x70000200 0x13 0 State.reset).bind (fun t => (t.qd[0]?).map (·.ctrl)))
          = some ⟨.analog, true, 1⟩ := by decide
/-- CF-9: ERR is read-only, and the refused write sets its bit 6. -/
theorem test_cfgWrite_err :
    respOf 0x70000008 0 0 State.reset = some ⟨0, 6⟩
      ∧ (stepWord 0x70000008 0 0 State.reset).map (·.err) = some 0x40 := by decide
/-- E-4: of two errors the lower code is raised. -/
theorem test_error_priority : respOf 0x1F0000C8 0 0 State.reset = some ⟨0, 3⟩ := by decide

/-! ## Witnesses: encoding and the step -/

theorem witness_DecodeEncodeRoundTrip :
    decode 0x1F0000FF 5 = .ok (.dbStep 15 0xFF) ∧ decode 0x70000FFF 5 = .ok (.cfgWrite 0xFFF 5) := by decide

theorem witness_EveryWordIsOneRowOrAnError :
    (rowCfgRead ∈ opcodeMap ∧ (0x60000FFF : Word) &&& rowCfgRead.mask = rowCfgRead.value)
      ∧ ((∀ r ∈ opcodeMap, (0x80000000 : Word) &&& r.mask ≠ r.value) ∧ 8 ≤ (opField 0x80000000).toNat)
      ∧ ((∀ r ∈ opcodeMap, (0x70001000 : Word) &&& r.mask ≠ r.value) ∧ (opField 0x70001000).toNat ≤ 7) := by decide

theorem witness_RegisterMapIsOneToOne :
    countsOk good ∧ decodeAddr good 0x106 = some (.dbT0 1) ∧ decodeAddr good 0x43F = some (.bankRef 1 15) :=
  ⟨by unfold countsOk; decide, by decide, by decide⟩

theorem witness_StepRunsTheDecodedCommand :
    ({ demo with inputs := [.command 0x10000003 9 1140] } : State).inputs = .command 0x10000003 9 1140 :: []
      ∧ decode 0x10000003 9 = .ok (.dbStep 0 3) := by decide

theorem witness_UndecodableWordsRaise :
    ({ demo with inputs := [.command 0x80000000 0 1] } : State).inputs = .command 0x80000000 0 1 :: []
      ∧ 8 ≤ (opField 0x80000000).toNat ∧ reservedSet 0x00000001 ∧ reservedSet 0x10800003 ∧ reservedSet 0x20010000
      ∧ reservedSet 0x3F800000 ∧ reservedSet 0x40100000 ∧ reservedSet 0x51000000 ∧ reservedSet 0x60001000
      ∧ reservedSet 0x78000000 := by
  unfold reservedSet
  refine ⟨rfl, ?_, ?_, ?_, ?_, ?_, ?_, ?_, ?_, ?_⟩ <;> decide

theorem witness_DataMattersToCfgWriteAlone : opField 0x60000000 ≠ 7 := by decide

theorem witness_ResetInputRestoresEverything :
    ({ demo with inputs := [.reset] } : State).inputs = .reset :: [] := rfl

theorem witness_ResetValues :
    (∃ t, step { demo with inputs := [.reset] } = .next t) ∧ demo.params.wf = true ∧ (1 : Nat) < demo.params.nDb
      ∧ (1 : Chan).toNat < demo.params.nQd ∧ (1 : Chan).toNat < demo.params.nBank :=
  ⟨⟨_, rfl⟩, by decide, by decide, by decide, by decide⟩

/-! ## Witnesses: the invariant and errors -/

/-- The invariant holds in a state that is not the state after reset. -/
theorem demo_invariant : Invariant demo := by
  refine ⟨by decide, rfl, rfl, rfl, by decide, by decide, ?_, by decide, by decide⟩
  decide +kernel

theorem witness_EveryResetMeetsTheInvariant : ({ good with nQd := 0, rstQdCtrl := [], rstQdDetents := [] } : Params).wf
    = true := by decide

theorem witness_EveryStepKeepsTheInvariant : Invariant demo ∧ ∃ t, step demo = .next t := ⟨demo_invariant, _, rfl⟩

theorem witness_NoInputStopsTheBlock : Invariant demo := demo_invariant

theorem witness_EveryRunFromResetGoesOn : good.wf = true := by decide

/-- An error of the command's rule, and one of decoding. -/
theorem witness_ErrorsArePrecise :
    (∃ t, step { demo with inputs := [.command 0x12000003 0 9] } = .next t ∧ t.response = some ⟨0, 3⟩)
      ∧ (∃ t, step { demo with inputs := [.command 0x80000000 0 9] } = .next t ∧ t.response = some ⟨0, 1⟩)
      ∧ (3 : BitVec 4) ≠ 0 ∧ (1 : BitVec 4) ≠ 0 := ⟨⟨_, rfl, rfl⟩, ⟨_, rfl, rfl⟩, by decide, by decide⟩

theorem witness_ErrorCodesOfEachCommand :
    (∃ t, step { demo with inputs := [.command 0x00000001 0 0] } = .next t) ∧ 8 ∈ codesOf (3 : BitVec 4).toNat
      ∧ 1 ∈ codesOf (15 : BitVec 4).toNat := ⟨⟨_, rfl⟩, by decide, by decide⟩

theorem witness_ErrIsSticky :
    (∃ t, step { demo with inputs := [.command 0x00000001 0 0] } = .next t)
      ∧ ∃ t, step { demo with inputs := [.reset] } = .next t := ⟨⟨_, rfl⟩, _, rfl⟩

/-! ## Witnesses: DB_STEP -/

/-- The state of section 2.1 with context c is ready for raw code raw on channel 0. -/
theorem ready (c : DbCtx) (now : Time) (raw : Code) (h : raw = noneRaw ∨ raw.toNat < 16) :
    dbReady (dbState c now) 0 raw c := ⟨show 0 < 2 by decide, h, rfl⟩

theorem witness_DbStepInUp :
    dbReady (dbState ⟨.up, noneRaw, 0⟩ 7) 0 noneRaw ⟨.up, noneRaw, 0⟩
      ∧ dbReady (dbState ⟨.up, noneRaw, 0⟩ 7) 0 15 ⟨.up, noneRaw, 0⟩ ∧ (15 : Code) ≠ noneRaw :=
  ⟨ready _ _ _ (by decide), ready _ _ _ (by decide), by decide⟩

/-- The four cases: no code, another code, and elapsed times of exactly DEBOUNCE_TIME and one less. -/
theorem witness_DbStepInDebounce :
    dbReady (dbState ⟨.debounce, 3, 1000⟩ 1025) 0 noneRaw ⟨.debounce, 3, 1000⟩
      ∧ dbReady (dbState ⟨.debounce, 3, 1000⟩ 1025) 0 4 ⟨.debounce, 3, 1000⟩ ∧ (4 : Code) ≠ noneRaw ∧ (4 : Code) ≠ 3
      ∧ dbReady (dbState ⟨.debounce, 3, 1000⟩ 1025) 0 3 ⟨.debounce, 3, 1000⟩ ∧ (3 : Code) ≠ noneRaw
      ∧ (25 : Time).toNat ≤ ((1025 : Time) - 1000).toNat
      ∧ dbReady (dbState ⟨.debounce, 3, 1000⟩ 1024) 0 3 ⟨.debounce, 3, 1000⟩
      ∧ ((1024 : Time) - 1000).toNat < (25 : Time).toNat :=
  ⟨ready _ _ _ (by decide), ready _ _ _ (by decide), by decide, by decide, ready _ _ _ (by decide), by decide,
    by decide, ready _ _ _ (by decide), by decide⟩

theorem witness_DbStepInPressed :
    dbReady (dbState ⟨.pressed, 3, 5⟩ 7) 0 3 ⟨.pressed, 3, 5⟩ ∧ dbReady (dbState ⟨.pressed, 3, 5⟩ 7) 0 4 ⟨.pressed, 3, 5⟩
      ∧ dbReady (dbState ⟨.pressed, 3, 5⟩ 7) 0 noneRaw ⟨.pressed, 3, 5⟩ :=
  ⟨ready _ _ _ (by decide), ready _ _ _ (by decide), ready _ _ _ (by decide)⟩

theorem witness_DbStepInDown :
    dbReady (dbState ⟨.down, 3, 1025⟩ 1125) 0 noneRaw ⟨.down, 3, 1025⟩
      ∧ dbReady (dbState ⟨.down, 3, 1025⟩ 1125) 0 3 ⟨.down, 3, 1025⟩
      ∧ (100 : Time).toNat ≤ ((1125 : Time) - 1025).toNat
      ∧ dbReady (dbState ⟨.down, 3, 1025⟩ 1124) 0 3 ⟨.down, 3, 1025⟩
      ∧ ((1124 : Time) - 1025).toNat < (100 : Time).toNat :=
  ⟨ready _ _ _ (by decide), ready _ _ _ (by decide), by decide, ready _ _ _ (by decide), by decide⟩

theorem witness_DbStepInReleased :
    dbReady (dbState ⟨.released, 3, 1030⟩ 1031) 0 noneRaw ⟨.released, 3, 1030⟩
      ∧ dbReady (dbState ⟨.released, 3, 1030⟩ 1031) 0 3 ⟨.released, 3, 1030⟩ :=
  ⟨ready _ _ _ (by decide), ready _ _ _ (by decide)⟩

theorem witness_DbStepInHeld :
    dbReady (dbState ⟨.held, 3, 1125⟩ 1165) 0 4 ⟨.held, 3, 1125⟩
      ∧ dbReady (dbState ⟨.held, 3, 1125⟩ 1165) 0 3 ⟨.held, 3, 1125⟩
      ∧ (40 : Time).toNat ≤ ((1165 : Time) - 1125).toNat
      ∧ dbReady (dbState ⟨.held, 3, 1125⟩ 1164) 0 3 ⟨.held, 3, 1125⟩
      ∧ ((1164 : Time) - 1125).toNat < (40 : Time).toNat :=
  ⟨ready _ _ _ (by decide), ready _ _ _ (by decide), by decide, ready _ _ _ (by decide), by decide⟩

theorem witness_DbStepErrors :
    demo.params.nDb ≤ (2 : Chan).toNat ∧ (1 : Chan).toNat < demo.params.nDb ∧ (16 : Code) ≠ noneRaw
      ∧ demo.params.nCodes ≤ (16 : Code).toNat ∧ (0xFE : Code) ≠ noneRaw := by decide

/-- Each of the four emissions, and a step that emits nothing. -/
theorem witness_TheFourEmissions :
    (dbReady (dbState ⟨.debounce, 3, 1000⟩ 1025) 0 3 ⟨.debounce, 3, 1000⟩
        ∧ ∃ t, exec (.dbStep 0 3) (dbState ⟨.debounce, 3, 1000⟩ 1025) = .next t)
      ∧ (dbReady (dbState ⟨.down, 3, 1025⟩ 1125) 0 3 ⟨.down, 3, 1025⟩
        ∧ ∃ t, exec (.dbStep 0 3) (dbState ⟨.down, 3, 1025⟩ 1125) = .next t)
      ∧ (dbReady (dbState ⟨.held, 3, 1125⟩ 1165) 0 3 ⟨.held, 3, 1125⟩
        ∧ ∃ t, exec (.dbStep 0 3) (dbState ⟨.held, 3, 1125⟩ 1165) = .next t)
      ∧ (dbReady (dbState ⟨.held, 3, 1125⟩ 1130) 0 noneRaw ⟨.held, 3, 1125⟩
        ∧ ∃ t, exec (.dbStep 0 noneRaw) (dbState ⟨.held, 3, 1125⟩ 1130) = .next t)
      ∧ (dbReady (dbState ⟨.held, 3, 1125⟩ 1164) 0 3 ⟨.held, 3, 1125⟩
        ∧ ∃ t, exec (.dbStep 0 3) (dbState ⟨.held, 3, 1125⟩ 1164) = .next t) :=
  ⟨⟨ready _ _ _ (by decide), _, rfl⟩, ⟨ready _ _ _ (by decide), _, rfl⟩, ⟨ready _ _ _ (by decide), _, rfl⟩,
    ⟨ready _ _ _ (by decide), _, rfl⟩, ready _ _ _ (by decide), _, rfl⟩

/-- A change of state, a retrack, a repeat, and a step that keeps t0. -/
theorem witness_TimestampRule :
    (∃ t, exec (.dbStep 0 3) (dbState ⟨.up, noneRaw, 0⟩ 7) = .next t ∧ t.db[(0 : Chan).toNat]? = some ⟨.debounce, 3, 7⟩
        ∧ t.response = some ⟨quiet, 0⟩)
      ∧ (∃ t, exec (.dbStep 0 4) (dbState ⟨.debounce, 3, 0⟩ 7) = .next t
        ∧ t.db[(0 : Chan).toNat]? = some ⟨.debounce, 4, 7⟩ ∧ t.response = some ⟨quiet, 0⟩)
      ∧ (∃ t, exec (.dbStep 0 3) (dbState ⟨.held, 3, 0⟩ 40) = .next t
        ∧ t.db[(0 : Chan).toNat]? = some ⟨.held, 3, 40⟩ ∧ t.response = some ⟨emits 3, 0⟩)
      ∧ (∃ t, exec (.dbStep 0 3) (dbState ⟨.held, 3, 0⟩ 39) = .next t
        ∧ t.db[(0 : Chan).toNat]? = some ⟨.held, 3, 0⟩ ∧ t.response = some ⟨quiet, 0⟩) :=
  ⟨⟨_, rfl, rfl, rfl⟩, ⟨_, rfl, rfl, rfl⟩, ⟨_, rfl, rfl, rfl⟩, _, rfl, rfl, rfl⟩

/-- A step that completes and one that raises. -/
theorem witness_DbStepWritesItsChannelOnly :
    (∃ t, exec (.dbStep 0 3) demo = .next t ∧ t.completed) ∧ ∃ t, exec (.dbStep 2 3) demo = .next t ∧ ¬ t.completed :=
  ⟨⟨_, rfl, _, rfl⟩, _, rfl, by rintro ⟨v, h⟩; cases h⟩

/-- Two states that differ in every other part. -/
theorem witness_DbStepReadsItsChannelOnly :
    let u : State := { dbState ⟨.held, 3, 1125⟩ 1130 with err := 2 }
    u.params = demo.params ∧ u.db[(0 : Chan).toNat]? = demo.db[(0 : Chan).toNat]? ∧ u.now = demo.now
      ∧ u.timing.debounceTime = demo.timing.debounceTime ∧ u.timing.holdTime = demo.timing.holdTime
      ∧ u.timing.repeatTime = demo.timing.repeatTime ∧ u ≠ demo
      ∧ ∃ t, exec (.dbStep 0 noneRaw) demo = .next t :=
  ⟨rfl, rfl, rfl, rfl, rfl, rfl, fun h => absurd (congrArg State.err h) (by decide), _, rfl⟩

theorem witness_DashRegistersAreInert :
    ∃ t, (∀ x, Instr.dbStep 0 3 ≠ .cfgRead x) ∧ (∀ x d, Instr.dbStep 0 3 ≠ .cfgWrite x d)
      ∧ exec (.dbStep 0 3) demo = .next t := ⟨_, by rintro x ⟨⟩, by rintro x d ⟨⟩, rfl⟩

theorem witness_HeldReleaseHappensOnce :
    dbReady (dbState ⟨.held, 3, 1125⟩ 1130) 0 noneRaw ⟨.held, 3, 1125⟩ ∧ noneRaw ≠ 3
      ∧ (noneRaw = noneRaw ∨ noneRaw.toNat < good.nCodes) ∧ (3 : Code).toNat < good.nCodes :=
  ⟨ready _ _ _ (by decide), by decide, by decide, by decide⟩

theorem witness_ShortPressesAreNeverEmitted :
    dbReady (dbState ⟨.debounce, 5, 0⟩ 0) 0 5 ⟨.debounce, 5, 0⟩ ∧ (5 : Code) ≠ noneRaw
      ∧ (∀ t ∈ [(1 : Time), 24], (t - 0).toNat < (25 : Time).toNat) ∧ noneRaw ≠ 5 ∧ (4 : Code) ≠ 5 :=
  ⟨ready _ _ _ (by decide), by decide, List.forall_mem_cons.2 ⟨by decide, List.forall_mem_singleton.2 (by decide)⟩,
    by decide, by decide⟩

theorem witness_RepeatCadence :
    dbReady (dbState ⟨.up, noneRaw, 0⟩ 0) 0 3 ⟨.up, noneRaw, 0⟩ ∧ (3 : Code) ≠ noneRaw :=
  ⟨ready _ _ _ (by decide), by decide⟩

/-! ## Witnesses: QD_STEP and QD_ANGLE -/

/-- The state of section 2.2 is ready when the index is in 1..7. -/
theorem qready (q : QdChan) (h1 : 1 ≤ q.seq.toNat) (h7 : q.seq.toNat ≤ 7) : qdReady (qdState q) 0 q :=
  ⟨show 0 < 2 by decide, rfl, h1, h7⟩

theorem analog (q : QdChan) (inp : BitVec 16) (hm : q.ctrl.mode = .analog) (hb : q.ctrl.bank = 0)
    (h : inp.toNat < 1024) : analogInput (qdState q) q inp quadBank :=
  ⟨hm, h, by rw [hb]; rfl, rfl⟩

/-- 610 is first matched by reference 2, 1023 by none. -/
theorem quadBank_matches :
    firstMatch .le quadBank 610 2 ∧ firstMatch .le quadBank 0 0 ∧ noMatch .le quadBank 1023 := by
  unfold firstMatch noMatch
  simp only [matchesAt_iff]
  decide +kernel

/-- The ends of the index range, with and without INVERT. -/
theorem witness_QdStepDigital :
    qdReady (qdState (quad 1 0 3 .digital false)) 0 (quad 1 0 3 .digital false)
      ∧ digitalInput (quad 1 0 3 .digital false) 3 3
      ∧ qdReady (qdState (quad 7 0 3 .digital true)) 0 (quad 7 0 3 .digital true)
      ∧ digitalInput (quad 7 0 3 .digital true) 0 3 :=
  ⟨qready _ (by decide) (by decide), by unfold digitalInput; decide, qready _ (by decide) (by decide),
    by unfold digitalInput; decide⟩

theorem witness_QdStepAnalog :
    qdReady (qdState (quad 4 0 3 .analog false)) 0 (quad 4 0 3 .analog false)
      ∧ analogInput (qdState (quad 4 0 3 .analog false)) (quad 4 0 3 .analog false) 610 quadBank
      ∧ firstMatch .le quadBank 610 2
      ∧ analogInput (qdState (quad 4 0 3 .analog false)) (quad 4 0 3 .analog false) 1023 quadBank
      ∧ noMatch .le quadBank 1023 :=
  ⟨qready _ (by decide) (by decide), analog _ _ rfl rfl (by decide), quadBank_matches.1,
    analog _ _ rfl rfl (by decide), quadBank_matches.2.2⟩

theorem witness_QdAngleDigital :
    qdReady (qdState (quad 1 0 3 .digital false)) 0 (quad 1 0 3 .digital false)
      ∧ digitalInput (quad 1 0 3 .digital false) 3 3 ∧ (quad 1 0 3 .digital false).detents ≠ 0 :=
  ⟨qready _ (by decide) (by decide), by unfold digitalInput; decide, by decide⟩

theorem witness_QdAngleAnalog :
    qdReady (qdState (quad 7 9 1 .analog true)) 0 (quad 7 9 1 .analog true)
      ∧ analogInput (qdState (quad 7 9 1 .analog true)) (quad 7 9 1 .analog true) 0 quadBank
      ∧ firstMatch .le quadBank 0 0
      ∧ analogInput (qdState (quad 7 9 1 .analog true)) (quad 7 9 1 .analog true) 1023 quadBank
      ∧ noMatch .le quadBank 1023 ∧ (quad 7 9 1 .analog true).detents ≠ 0 :=
  ⟨qready _ (by decide) (by decide), analog _ _ rfl rfl (by decide), quadBank_matches.2.1,
    analog _ _ rfl rfl (by decide), quadBank_matches.2.2, by decide⟩

theorem witness_QuadratureErrors :
    demo.params.nQd ≤ (2 : Chan).toNat ∧ (1 : Chan).toNat < demo.params.nQd
      ∧ (demo.qd[1]?).map (fun q => q.ctrl.mode) = some .digital ∧ 4 ≤ (4 : BitVec 16).toNat
      ∧ (demo.qd[0]?).map (fun q => q.ctrl.mode) = some .analog
      ∧ 2 ^ demo.params.sampleW ≤ (1024 : BitVec 16).toNat ∧ (1023 : BitVec 16).toNat < 2 ^ demo.params.sampleW
      ∧ (demo.bank[1]?).map (fun k => k.count.val) = some 3 := by decide +kernel

theorem witness_NoiseIsRejected :
    1 ≤ (quad 4 0 3 .digital false).seq.toNat ∧ (quad 4 0 3 .digital false).seq.toNat ≤ 7
      ∧ (quad 4 0 3 .digital false).rejects 0 := by unfold QdChan.rejects; decide

theorem witness_OneDetentPerCycle :
    qdReady (qdState (quad 4 5 3 .digital true)) 0 (quad 4 5 3 .digital true)
      ∧ (quad 4 5 3 .digital true).seq = 4 ∧ (quad 4 5 3 .digital true).ctrl.mode = .digital :=
  ⟨qready _ (by decide) (by decide), rfl, rfl⟩

theorem witness_AnalogFallbackNeverCorrupts :
    (qdReady (qdState (quad 4 0 3 .analog false)) 0 (quad 4 0 3 .analog false)
      ∧ analogInput (qdState (quad 4 0 3 .analog false)) (quad 4 0 3 .analog false) 1023 quadBank
      ∧ noMatch .le quadBank 1023 ∧ (quad 4 0 3 .analog false).rejects (quad 4 0 3 .analog false).prev)
    ∧ (analogInput (qdState (quad 4 0 3 .analog false)) (quad 4 0 3 .analog false) 610 quadBank
      ∧ ∃ t, exec (.qdStep 0 610) (qdState (quad 4 0 3 .analog false)) = .next t ∧ t.qd[(0 : Chan).toNat]? ≠ none) :=
  ⟨⟨qready _ (by decide) (by decide), analog _ _ rfl rfl (by decide), quadBank_matches.2.2,
      by unfold QdChan.rejects; decide⟩,
    analog _ _ rfl rfl (by decide), _, rfl, by decide +kernel⟩

/-- A step that completes and one that raises. -/
theorem witness_QuadratureWritesItsChannelOnly :
    (∃ t, exec (.qdStep 1 0) demo = .next t ∧ t.completed) ∧ ∃ t, exec (.qdAngle 1 4) demo = .next t ∧ ¬ t.completed :=
  ⟨⟨_, rfl, _, rfl⟩, _, rfl, by rintro ⟨v, h⟩; cases h⟩

/-- Two states that differ outside channel 0 and its bank, with channel 0 in analog mode. -/
theorem witness_QuadratureReadsItsChannelOnly :
    let s := qdState (quad 4 0 3 .analog false)
    let u : State := { s with err := 2, bank := [quadBank, quadBank], now := 9 }
    u.params = s.params ∧ u.qd[(0 : Chan).toNat]? = s.qd[(0 : Chan).toNat]?
      ∧ u.bank[(0 : Chan).toNat]? = s.bank[(0 : Chan).toNat]? ∧ u.err ≠ s.err
      ∧ ∃ t, exec (.qdStep 0 610) s = .next t := ⟨rfl, rfl, rfl, by decide, _, rfl⟩

/-- QD-10 and QD-11. -/
theorem witness_PositionCounterWraps :
    qdReady (qdState (quad 7 0x7FFFFFFF 3 .digital false)) 0 (quad 7 0x7FFFFFFF 3 .digital false)
      ∧ digitalInput (quad 7 0x7FFFFFFF 3 .digital false) 3 3
      ∧ qdReady (qdState (quad 1 0x80000000 3 .digital true)) 0 (quad 1 0x80000000 3 .digital true)
      ∧ digitalInput (quad 1 0x80000000 3 .digital true) 0 3 :=
  ⟨qready _ (by decide) (by decide), by unfold digitalInput; decide, qready _ (by decide) (by decide),
    by unfold digitalInput; decide⟩

/-- A counter of -1 (A-3). -/
theorem witness_AngleIsBounded :
    ∃ t, exec (.qdAngle 0 3) (qdState (quad 4 0xFFFFFFFF 3 .digital false)) = .next t
      ∧ t.response = some ⟨0x00170000, 0⟩ := ⟨_, rfl, by decide⟩

/-- An Up on channel 1 of the demo state, whose counter wraps. -/
theorem witness_CountersMoveByOneDetent :
    ∃ t q q', exec (.qdStep 1 0) demo = .next t ∧ demo.qd[1]? = some q ∧ t.qd[1]? = some q'
      ∧ q.pos = 0x7FFFFFFF ∧ q'.pos = 0x80000000 := ⟨_, _, _, rfl, rfl, rfl, rfl, by decide⟩

theorem witness_ContextsHaveOneWriter :
    (∃ t, exec (.dbStep 0 3) demo = .next t) ∧ (∀ ch raw, Instr.dbStep 0 3 = .dbStep ch raw → ch.toNat ≠ 1)
      ∧ (∃ t, exec (.qdStep 1 0) demo = .next t)
      ∧ ∀ ch inp, Instr.qdStep 1 0 = .qdStep ch inp ∨ Instr.qdStep 1 0 = .qdAngle ch inp → ch.toNat ≠ 0 := by
  refine ⟨⟨_, rfl⟩, ?_, ⟨_, rfl⟩, ?_⟩
  · intro ch raw h
    cases h
    decide
  · rintro ch inp (h | h)
    · cases h
      decide
    · cases h

/-! ## Witnesses: the classifier -/

theorem joyBank_matches :
    firstMatch .le joyBank 0 0 ∧ firstMatch .le joyBank 512 1 ∧ firstMatch .le joyBank 1023 2
      ∧ noMatch .le joyBank 300 := by
  unfold firstMatch noMatch
  simp only [matchesAt_iff]
  decide +kernel

/-- The highest bank and the largest sample. -/
theorem witness_ClassifyFindsTheFirstMatch :
    (1 : Chan).toNat < joyState.params.nBank ∧ joyState.bank[(1 : Chan).toNat]? = some joyBank
      ∧ (1023 : BitVec 16).toNat < 2 ^ joyState.params.sampleW
      ∧ firstMatch joyState.params.tolCmp joyBank (1023 : BitVec 16).toNat 2
      ∧ noMatch joyState.params.tolCmp joyBank (300 : BitVec 16).toNat :=
  ⟨by decide, rfl, by decide, joyBank_matches.2.2.1, joyBank_matches.2.2.2⟩

/-- J-4, J-2 and J-1: a stray axis, both at the center, and a direction. -/
theorem witness_JoystickDirection :
    (1023 : BitVec 12).toNat < 2 ^ joyState.params.sampleW ∧ joyState.bank[joyState.joyCtrl.bankX.toNat]? = some joyBank
      ∧ joyState.bank[joyState.joyCtrl.bankY.toNat]? = some joyBank
      ∧ noMatch joyState.params.tolCmp joyBank (300 : BitVec 12).toNat
      ∧ firstMatch joyState.params.tolCmp joyBank (512 : BitVec 12).toNat 1
      ∧ firstMatch joyState.params.tolCmp joyBank (1023 : BitVec 12).toNat 2
      ∧ (1 : Fin 16).val = joyState.joyCtrl.centerX.toNat ∧ (2 : Fin 16).val ≠ joyState.joyCtrl.centerY.toNat :=
  ⟨by decide, rfl, rfl, joyBank_matches.2.2.2, joyBank_matches.2.1, joyBank_matches.2.2.1, by decide, by decide⟩

theorem witness_ClassifierErrors :
    joyState.params.nBank ≤ (2 : Chan).toNat ∧ (1 : Chan).toNat < joyState.params.nBank
      ∧ 2 ^ joyState.params.sampleW ≤ (1024 : BitVec 16).toNat ∧ 2 ^ joyState.params.sampleW ≤ (1024 : BitVec 12).toNat
      := by decide

/-! ## Witnesses: NOP, CFG_READ, CFG_WRITE and the host's side -/

/-- One that completes and one that raises. -/
theorem witness_NopAndReadingCommandsWriteNothing :
    (∃ t, exec (.cfgRead 0) demo = .next t ∧ t.completed) ∧ ∃ t, exec (.cfgRead 5) demo = .next t :=
  ⟨⟨_, rfl, _, rfl⟩, _, rfl⟩

/-- Each debounce state, a quadrature channel and a bank, at the highest number of each. -/
theorem witness_CfgReadChannelsAndBanks :
    countsOk good ∧ (1 : Nat) < good.nDb
      ∧ (∀ st : DbState, ({ demo with db := [DbCtx.atReset, ⟨st, 3, 9⟩] } : State).db[1]? = some ⟨st, 3, 9⟩)
      ∧ (1 : Nat) < good.nQd ∧ demo.qd[1]? ≠ none ∧ (1 : Nat) < good.nBank ∧ demo.bank[1]? = some joyBank :=
  ⟨by unfold countsOk; decide, by decide, fun _ => rfl, by decide, by decide, by decide, rfl⟩

/-- The first address of each kind of hole, and the last address (CF-10, E-6). -/
theorem witness_UnmappedAddressesRaise :
    countsOk good ∧ ∀ a ∈ [(5 : Nat), 7, 0x00A, 0x103, 0x108, 0x205, 0x210, 0x402, 0x40F, 0x440, 0xFFF], ¬ mapped good a := by
  refine ⟨by unfold countsOk; decide, ?_⟩
  have h1 : good.nDb = 2 := rfl
  have h2 : good.nQd = 2 := rfl
  have h3 : good.nBank = 2 := rfl
  intro a ha
  simp only [List.mem_cons, List.not_mem_nil, or_false] at ha
  rintro (h | h | h | ⟨ch, k, h4, h5, h6⟩ | ⟨ch, k, h4, h5, h6⟩ | ⟨b, k, h4, h5, h6⟩) <;> omega

theorem witness_ReadOnlyRegistersRefuseWrites : countsOk demo.params ∧ 1 < demo.params.nDb ∧ 1 < demo.params.nQd :=
  ⟨by unfold countsOk; decide, by decide, by decide⟩

/-- The largest JOY_CTRL, and values with a reserved bit or a bank that does not exist (CF-8). -/
theorem witness_CfgWriteGlobals :
    ((0xFF11 : Word).toNat < 2 ^ 16 ∧ (0xFF11 : Word).toNat % 16 < good.nBank
        ∧ (0xFF11 : Word).toNat / 2 ^ 4 % 16 < good.nBank)
      ∧ ¬ ((0x10000 : Word).toNat < 2 ^ 16) ∧ ¬ ((0x2 : Word).toNat % 16 < good.nBank) := by decide

/-- The values of CF-3, CF-4 and CF-5. -/
theorem witness_CfgWriteChannels :
    countsOk demo.params ∧ 1 < demo.params.nQd ∧ demo.qd[1]? ≠ none
      ∧ ((0x13 : Word).toNat < 2 ^ 8 ∧ (0x13 : Word).toNat / 4 % 4 = 0 ∧ (0x13 : Word).toNat / 2 ^ 4 < demo.params.nBank)
      ∧ ¬ ((0x4 : Word).toNat / 4 % 4 = 0) ∧ ¬ ((0x20 : Word).toNat / 2 ^ 4 < demo.params.nBank)
      ∧ (1 ≤ (0xFFFF : Word).toNat ∧ (0xFFFF : Word).toNat < 2 ^ 16) ∧ ¬ (1 ≤ (0 : Word).toNat)
      ∧ ¬ ((0x10000 : Word).toNat < 2 ^ 16) :=
  ⟨by unfold countsOk; decide, by decide, by decide, by decide, by decide, by decide, by decide, by decide, by decide⟩

/-- The values of CF-6 and CF-7. -/
theorem witness_CfgWriteBanks :
    countsOk demo.params ∧ demo.params.sampleW ≤ 12 ∧ 1 < demo.params.nBank ∧ demo.bank[1]? = some joyBank
      ∧ (16 : Word).toNat = (16 : Fin 17).val ∧ 16 < (17 : Word).toNat
      ∧ (1023 : Word).toNat < 2 ^ demo.params.sampleW ∧ 2 ^ demo.params.sampleW ≤ (1024 : Word).toNat :=
  ⟨by unfold countsOk; decide, by decide, by decide, rfl, by decide, by decide, by decide, by decide⟩

theorem witness_ReadBackGivesTheWrittenValue :
    demo.params.sampleW ≤ 12 ∧ ∃ t, exec (.cfgWrite 0x009 0xFF11) demo = .next t ∧ t.completed :=
  ⟨by decide, _, rfl, _, rfl⟩

theorem witness_WriteChangesOnlyItsRegister :
    ∃ t, exec (.cfgWrite 0x201 1) demo = .next t ∧ t.completed ∧ (0x200 : Addr) ≠ 0x201 := ⟨_, rfl, ⟨_, rfl⟩, by decide⟩

/-- An emission and none; Up, Down, none and an error; an angle. -/
theorem witness_HostCallsReadTheResponse :
    (Invariant demo ∧ (∃ t, exec (.dbStep 0 noneRaw) demo = .next t ∧ t.response = some ⟨emits 3, 0⟩)
        ∧ (∃ t, exec (.dbStep 0 3) demo = .next t ∧ t.response = some ⟨quiet, 0⟩)
        ∧ ∃ t, exec (.dbStep 0 16) demo = .next t ∧ t.response = some ⟨0, 4⟩)
      ∧ (∃ t, exec (.qdStep 1 0) demo = .next t ∧ t.response = some ⟨1, 0⟩)
      ∧ (∃ t, exec (.qdStep 0 3) (qdState (quad 1 0 3 .digital false)) = .next t ∧ t.response = some ⟨2, 0⟩)
      ∧ (∃ t, exec (.qdStep 1 4) demo = .next t ∧ t.response = some ⟨0, 4⟩)
      ∧ ∃ t, exec (.qdAngle 1 0) demo = .next t ∧ t.response = some ⟨1, 0⟩ :=
  ⟨⟨demo_invariant, ⟨_, rfl, by decide⟩, ⟨_, rfl, by decide⟩, _, rfl, by decide⟩, ⟨_, rfl, by decide⟩,
    ⟨_, rfl, by decide⟩, ⟨_, rfl, by decide⟩, _, rfl, by decide⟩

end Sys2Proof.Tests
end

section
/-! SUPPORT. The state after the RST input (10_state.md R49, 70_reset_and_hazards.md R260): what
well-formed parameters say of the construction values, what reset puts into each part of the state, and how each
register then reads. -/

namespace Sys2Proof.Machine

/-! ## Construction values -/

/-- Every construction value of p passes the check of its register (R7, R206), register by register. -/
structure ConstructionValid (p : Params) : Prop where
  joyCtrl : validJoyCtrl p p.rstJoyCtrl = true
  qdCtrl : ∀ c < p.nQd, validQdCtrl p (p.rstQdCtrl.getD c 0) = true
  qdDetents : ∀ c < p.nQd, validQdDetents (p.rstQdDetents.getD c 0) = true
  bankCount : ∀ b < p.nBank, validBankCount (p.rstBankCount.getD b 0) = true
  bankTol : ∀ b < p.nBank, validLevel p (p.rstBankTol.getD b 0) = true
  bankRef : ∀ b < p.nBank, ∀ i < 16, validLevel p ((p.rstBankRef.getD b []).getD i 0) = true

/-- A check that every entry of a list passes is passed by the entry read at an index in range. -/
theorem all_getD {α : Type} {l : List α} {f : α → Bool} {i n : Nat} {d : α} (hlen : l.length = n)
    (hall : l.all f = true) (hi : i < n) : f (l.getD i d) = true := by
  subst hlen
  rw [List.getD_eq_getElem l d hi]
  exact List.all_eq_true.1 hall _ (List.getElem_mem hi)

theorem wf_constructionValid {p : Params} (h : p.wf = true) : ConstructionValid p := by
  simp only [Params.wf, Params.constructionOk, Bool.and_eq_true, decide_eq_true_eq] at h
  obtain ⟨⟨-, ⟨⟨⟨⟨⟨⟨⟨⟨⟨⟨hjoy, nctrl⟩, hctrl⟩, ndet⟩, hdet⟩, ncount⟩, hcount⟩, ntol⟩, htol⟩, nref⟩, href⟩⟩, -⟩ := h
  refine ⟨hjoy, fun _ => all_getD nctrl hctrl, fun _ => all_getD ndet hdet, fun _ => all_getD ncount hcount,
    fun _ => all_getD ntol htol, fun b hb i hi => ?_⟩
  have hrefs := all_getD (d := []) nref href hb
  simp only [Bool.and_eq_true, decide_eq_true_eq] at hrefs
  exact all_getD hrefs.1 hrefs.2 hi

/-! ## The state after reset -/

theorem step_of_reset {s : State} {rest : List Input} (h : s.inputs = .reset :: rest) :
    step s = .next (applyReset { s with inputs := rest }) := by
  simp only [step, h]

@[simp] theorem applyReset_timing (s : State) : (applyReset s).timing = Timing.atReset s.params := rfl

@[simp] theorem applyReset_joyCtrl (s : State) : (applyReset s).joyCtrl = JoyCtrl.ofWord s.params.rstJoyCtrl := rfl

theorem applyReset_db_get {s : State} {ch : Nat} (h : ch < s.params.nDb) :
    (applyReset s).db[ch]? = some DbCtx.atReset :=
  List.getElem?_replicate_of_lt h

theorem applyReset_qd_get {s : State} {ch : Nat} (h : ch < s.params.nQd) :
    (applyReset s).qd[ch]? = some (QdChan.atReset s.params ch) := by
  simp [applyReset, State.resetOf, h]

theorem applyReset_bank_get {s : State} {b : Nat} (h : b < s.params.nBank) :
    (applyReset s).bank[b]? = some (Bank.atReset s.params b) := by
  simp [applyReset, State.resetOf, h]

/-! ## Reading a register of a channel or bank that exists -/

theorem read_qdCtrl {s : State} {ch : Chan} {q : QdChan} (h : s.qd[ch.toNat]? = some q) :
    (Reg.qdCtrl ch).read s = .ok q.ctrl.toWord :=
  map_ok_iff.2 ⟨q, getQd_ok_iff.2 h, rfl⟩

theorem read_qdDetents {s : State} {ch : Chan} {q : QdChan} (h : s.qd[ch.toNat]? = some q) :
    (Reg.qdDetents ch).read s = .ok (q.detents.setWidth 32) :=
  map_ok_iff.2 ⟨q, getQd_ok_iff.2 h, rfl⟩

theorem read_bankCount {s : State} {b : Chan} {k : Bank} (h : s.bank[b.toNat]? = some k) :
    (Reg.bankCount b).read s = .ok (BitVec.ofNat 32 k.count.val) :=
  map_ok_iff.2 ⟨k, getBank_ok_iff.2 h, rfl⟩

theorem read_bankTol {s : State} {b : Chan} {k : Bank} (h : s.bank[b.toNat]? = some k) :
    (Reg.bankTol b).read s = .ok (k.tol.setWidth 32) :=
  map_ok_iff.2 ⟨k, getBank_ok_iff.2 h, rfl⟩

theorem read_bankRef {s : State} {b : Chan} {k : Bank} (h : s.bank[b.toNat]? = some k) (i : BitVec 4) :
    (Reg.bankRef b i).read s = .ok ((k.refs[i.toNat]'i.isLt).setWidth 32) :=
  map_ok_iff.2 ⟨k, getBank_ok_iff.2 h, rfl⟩

/-! ## Every register reads as its construction value -/

section AfterReset

variable {s : State} (hwf : s.params.wf = true)
include hwf

theorem read_joyCtrl_applyReset : Reg.joyCtrl.read (applyReset s) = .ok s.params.rstJoyCtrl := by
  rw [Reg.read, applyReset_joyCtrl, joyCtrl_readBack (wf_constructionValid hwf).joyCtrl]

theorem read_qdCtrl_applyReset {ch : Chan} (hch : ch.toNat < s.params.nQd) :
    (Reg.qdCtrl ch).read (applyReset s) = .ok (s.params.rstQdCtrl.getD ch.toNat 0) := by
  rw [read_qdCtrl (applyReset_qd_get hch), QdChan.atReset, qdCtrl_readBack ((wf_constructionValid hwf).qdCtrl _ hch)]

theorem read_qdDetents_applyReset {ch : Chan} (hch : ch.toNat < s.params.nQd) :
    (Reg.qdDetents ch).read (applyReset s) = .ok (s.params.rstQdDetents.getD ch.toNat 0) := by
  rw [read_qdDetents (applyReset_qd_get hch), QdChan.atReset,
    detents_readBack ((wf_constructionValid hwf).qdDetents _ hch)]

theorem read_bankCount_applyReset {b : Chan} (hb : b.toNat < s.params.nBank) :
    (Reg.bankCount b).read (applyReset s) = .ok (s.params.rstBankCount.getD b.toNat 0) := by
  rw [read_bankCount (applyReset_bank_get hb), Bank.atReset,
    count_readBack ((wf_constructionValid hwf).bankCount _ hb)]

theorem read_bankTol_applyReset {b : Chan} (hb : b.toNat < s.params.nBank) :
    (Reg.bankTol b).read (applyReset s) = .ok (s.params.rstBankTol.getD b.toNat 0) := by
  obtain ⟨-, -, -, -, -, hsample⟩ := wf_ranges hwf
  rw [read_bankTol (applyReset_bank_get hb), Bank.atReset,
    level_readBack hsample ((wf_constructionValid hwf).bankTol _ hb)]

theorem read_bankRef_applyReset {b : Chan} (hb : b.toNat < s.params.nBank) (i : BitVec 4) :
    (Reg.bankRef b i).read (applyReset s) = .ok ((s.params.rstBankRef.getD b.toNat []).getD i.toNat 0) := by
  obtain ⟨-, -, -, -, -, hsample⟩ := wf_ranges hwf
  have hvalid := (wf_constructionValid hwf).bankRef _ hb _ i.isLt
  simp only [read_bankRef (applyReset_bank_get hb), Bank.atReset, refsOfWords_get, level_readBack hsample hvalid]

end AfterReset

/-- Settles O9: RST's next state is `applyReset`, which holds every context of R49 as it stands and every
construction value as fields, and a valid construction value is read back from its fields unchanged. -/
theorem resetValues : Obligations.ResetValues := by
  unfold Obligations.ResetValues
  intro s t rest hin hwf hstep
  rw [step_of_reset hin] at hstep
  cases hstep
  have hwf' : ({ s with inputs := rest } : State).params.wf = true := hwf
  exact ⟨applyReset_response _, fun _ hch => applyReset_db_get hch,
    fun _ hch => ⟨⟨_, applyReset_qd_get hch, rfl, rfl, rfl⟩, read_qdCtrl_applyReset hwf' hch,
      read_qdDetents_applyReset hwf' hch⟩,
    fun _ hb => ⟨read_bankCount_applyReset hwf' hb, read_bankTol_applyReset hwf' hb, read_bankRef_applyReset hwf' hb⟩,
    applyReset_err _, read_joyCtrl_applyReset hwf', applyReset_timing _⟩

end Sys2Proof.Machine
end

section
/-! SUPPORT. Decoding at the port (30_encoding.md R89, R91, R92): when a word's reserved bits or its opcode make it no
command, what a step then does, and where decoding looks at DATA. -/

namespace Sys2Proof.Machine

/-! ## Reserved bits -/

/-- A field that a row fixes at 0 is 0 in every word that matches the row. -/
theorem field_eq_zero_of_matches {r : Row} {cmd : Word} {lo len : Nat}
    (hmask : r.mask.extractLsb' lo len = BitVec.allOnes len) (hvalue : r.value.extractLsb' lo len = 0)
    (hmatch : cmd &&& r.mask = r.value) : cmd.extractLsb' lo len = 0 :=
  calc cmd.extractLsb' lo len
      = (cmd &&& r.mask).extractLsb' lo len := by rw [BitVec.extractLsb'_and, hmask, BitVec.and_allOnes]
    _ = 0 := by rw [hmatch, hvalue]

/-- So a word with a bit set in such a field fails the row's check. -/
theorem checkRow_of_field_ne_zero {r : Row} {cmd : Word} {i : Instr} {lo len : Nat}
    (hfield : cmd.extractLsb' lo len ≠ 0) (hmask : r.mask.extractLsb' lo len = BitVec.allOnes len)
    (hvalue : r.value.extractLsb' lo len = 0) : checkRow r cmd i = .error .reservedBits :=
  if_neg fun hmatch => hfield (field_eq_zero_of_matches hmask hvalue hmatch)

/-- The "0" bits of each format lie in a field that the opcode's row fixes at 0. -/
theorem decode_of_reservedSet {cmd : Word} (data : Word) (h : reservedSet cmd) :
    decode cmd data = .error .reservedBits := by
  unfold decode
  obtain ⟨hop, hf⟩ | ⟨hop, hf⟩ | ⟨hop | hop | hop, hf⟩ | ⟨hop, hf⟩ | ⟨hop | hop, hf⟩ := h <;> rw [hop] <;>
    exact checkRow_of_field_ne_zero hf (by decide) (by decide)

theorem decode_of_opcode_ge_eight {cmd : Word} (data : Word) (h : 8 ≤ (opField cmd).toNat) :
    decode cmd data = .error .illegalOpcode := by
  unfold decode
  split
  case h_9 => rfl
  all_goals omega

/-! ## DATA -/

theorem decode_data_congr {cmd : Word} (d₁ d₂ : Word) (hop : opField cmd ≠ 7) : decode cmd d₁ = decode cmd d₂ := by
  have h7 : (opField cmd).toNat ≠ 7 := fun h => hop (BitVec.eq_of_toNat_eq h)
  unfold decode
  split
  case h_8 h => exact absurd h h7
  all_goals rfl

/-- A command acts through what its words decode to alone. -/
theorem runCommand_congr {cmd₁ cmd₂ d₁ d₂ : Word} (now : Time) (s : State) (h : decode cmd₁ d₁ = decode cmd₂ d₂) :
    runCommand cmd₁ d₁ now s = runCommand cmd₂ d₂ now s := by
  simp only [runCommand, h]

/-! ## The step on a command -/

theorem step_of_command {s : State} {cmd data : Word} {now : Time} {rest : List Input}
    (h : s.inputs = .command cmd data now :: rest) :
    step s = runCommand cmd data now { s with inputs := rest } := by
  simp only [step, h]

/-- A word that is no command raises its decoding error on the state that has taken it from the port. -/
theorem step_of_decode_error {s : State} {cmd data : Word} {now : Time} {rest : List Input} {e : DecodeError}
    (hin : s.inputs = .command cmd data now :: rest) (hdec : decode cmd data = .error e) :
    step s = .next (State.afterError { s with now := now, inputs := rest } (decodeErr e).num) := by
  simp only [step_of_command hin, runCommand, hdec, raise_eq_afterError]

/-- Settles O6: an opcode from 8 up and a set reserved bit are each a decoding error, which the step raises. -/
theorem undecodableWordsRaise : Obligations.UndecodableWordsRaise := by
  unfold Obligations.UndecodableWordsRaise
  intro s cmd data now rest hin
  exact ⟨fun hop => step_of_decode_error hin (decode_of_opcode_ge_eight data hop),
    fun hres => step_of_decode_error hin (decode_of_reservedSet data hres)⟩

/-- Settles O7: the two steps run the same decoded command, because only opcode 7 decodes to an operand from DATA. -/
theorem dataMattersToCfgWriteAlone : Obligations.DataMattersToCfgWriteAlone := by
  unfold Obligations.DataMattersToCfgWriteAlone
  intro s cmd d₁ d₂ now rest hop
  rw [step_of_command rfl, step_of_command rfl]
  exact runCommand_congr now _ (decode_data_congr d₁ d₂ hop)

end Sys2Proof.Machine
end

section
/-! SUPPORT. DB_STEP in each debounce state (40_debounce.md R123 to R129): one poll cycle row by row, what the command
then does, and when the cycle sets the timestamp. -/

namespace Sys2Proof.Machine

/-! ## The rows of a poll cycle

One equation for each state and each condition on the raw code and the elapsed time (R121). -/

section PollRows
variable {timing : Timing} {now : Time} {raw : Code} {c : DbCtx}

theorem dbPoll_up_of_none (hs : c.state = .up) (hr : raw = noneRaw) : dbPoll timing now raw c = (c, none) := by
  simp only [dbPoll, hs, armUp, if_pos hr]

theorem dbPoll_up_of_code (hs : c.state = .up) (hr : raw ≠ noneRaw) :
    dbPoll timing now raw c = (⟨.debounce, raw, now⟩, none) := by
  simp only [dbPoll, hs, armUp, if_neg hr]

theorem dbPoll_debounce_of_none (hs : c.state = .debounce) (hr : raw = noneRaw) :
    dbPoll timing now raw c = (⟨.up, noneRaw, now⟩, none) := by
  simp only [dbPoll, hs, armDebounce, if_pos hr]

theorem dbPoll_debounce_of_other (hs : c.state = .debounce) (hr : raw ≠ noneRaw) (hc : raw ≠ c.tracked) :
    dbPoll timing now raw c = (⟨.debounce, raw, now⟩, none) := by
  simp only [dbPoll, hs, armDebounce, if_neg hr, if_pos hc]

/-- The first branch of Pressed, which the confirm passes through (R125). -/
theorem armPressed_of_match (hr : raw ≠ noneRaw) (hc : raw = c.tracked) :
    armPressed now raw c = ⟨.down, c.tracked, now⟩ :=
  if_pos ⟨hr, hc⟩

theorem dbPoll_debounce_of_elapsed (hs : c.state = .debounce) (hr : raw ≠ noneRaw) (hc : raw = c.tracked)
    (hel : timing.debounceTime.toNat ≤ (now - c.t0).toNat) :
    dbPoll timing now raw c = (⟨.down, c.tracked, now⟩, some c.tracked) := by
  have hpressed := armPressed_of_match (now := now) (c := { c with state := .pressed, t0 := now }) hr hc
  simp only [dbPoll, hs, armDebounce, if_neg hr, if_neg (not_not.2 hc), hpressed]
  exact if_pos hel

theorem dbPoll_debounce_of_early (hs : c.state = .debounce) (hr : raw ≠ noneRaw) (hc : raw = c.tracked)
    (hel : (now - c.t0).toNat < timing.debounceTime.toNat) : dbPoll timing now raw c = (c, none) := by
  simp only [dbPoll, hs, armDebounce, if_neg hr, if_neg (not_not.2 hc)]
  exact if_neg (Nat.not_le.2 hel)

theorem dbPoll_pressed (hs : c.state = .pressed) : dbPoll timing now raw c = (armPressed now raw c, none) := by
  simp only [dbPoll, hs]

theorem dbPoll_down_of_lost (hs : c.state = .down) (hr : raw = noneRaw ∨ raw ≠ c.tracked) :
    dbPoll timing now raw c = (⟨.released, c.tracked, now⟩, none) := by
  simp only [dbPoll, hs, armDown, if_pos hr]

theorem dbPoll_down_of_elapsed (hs : c.state = .down) (hr : raw ≠ noneRaw) (hc : raw = c.tracked)
    (hel : timing.holdTime.toNat ≤ (now - c.t0).toNat) :
    dbPoll timing now raw c = (⟨.held, c.tracked, now⟩, some c.tracked) := by
  simp only [dbPoll, hs, armDown, if_neg (not_or.2 ⟨hr, not_not.2 hc⟩)]
  exact if_pos hel

theorem dbPoll_down_of_early (hs : c.state = .down) (hr : raw ≠ noneRaw) (hc : raw = c.tracked)
    (hel : (now - c.t0).toNat < timing.holdTime.toNat) : dbPoll timing now raw c = (c, none) := by
  simp only [dbPoll, hs, armDown, if_neg (not_or.2 ⟨hr, not_not.2 hc⟩)]
  exact if_neg (Nat.not_le.2 hel)

theorem dbPoll_released_of_none (hs : c.state = .released) (hr : raw = noneRaw) :
    dbPoll timing now raw c = (⟨.up, noneRaw, now⟩, none) := by
  simp only [dbPoll, hs, armReleased, if_pos hr]

theorem dbPoll_released_of_code (hs : c.state = .released) (hr : raw ≠ noneRaw) :
    dbPoll timing now raw c = (⟨.debounce, raw, now⟩, none) := by
  simp only [dbPoll, hs, armReleased, if_neg hr]

theorem dbPoll_held_of_lost (hs : c.state = .held) (hr : raw = noneRaw ∨ raw ≠ c.tracked) :
    dbPoll timing now raw c = (⟨.released, c.tracked, now⟩, some c.tracked) := by
  simp only [dbPoll, hs, armHeld, if_pos hr]

theorem dbPoll_held_of_elapsed (hs : c.state = .held) (hr : raw ≠ noneRaw) (hc : raw = c.tracked)
    (hel : timing.repeatTime.toNat ≤ (now - c.t0).toNat) :
    dbPoll timing now raw c = (⟨.held, c.tracked, now⟩, some c.tracked) := by
  simp only [dbPoll, hs, armHeld, if_neg (not_or.2 ⟨hr, not_not.2 hc⟩)]
  exact if_pos hel

theorem dbPoll_held_of_early (hs : c.state = .held) (hr : raw ≠ noneRaw) (hc : raw = c.tracked)
    (hel : (now - c.t0).toNat < timing.repeatTime.toNat) : dbPoll timing now raw c = (c, none) := by
  simp only [dbPoll, hs, armHeld, if_neg (not_or.2 ⟨hr, not_not.2 hc⟩)]
  exact if_neg (Nat.not_le.2 hel)

end PollRows

/-! ## The command in each state -/

theorem exec_dbStep_of_quiet {s : State} {ch : Chan} {raw : Code} {c c' : DbCtx} (h : dbReady s ch raw c)
    (hpoll : dbPoll s.timing s.now raw c = (c', none)) : exec (.dbStep ch raw) s = .next (s.dbAfter ch c' quiet) := by
  rw [exec_dbStep h, hpoll, respEmission_none]

theorem exec_dbStep_of_emission {s : State} {ch : Chan} {raw : Code} {c c' : DbCtx} {k : Code}
    (h : dbReady s ch raw c) (hpoll : dbPoll s.timing s.now raw c = (c', some k)) :
    exec (.dbStep ch raw) s = .next (s.dbAfter ch c' (emits k)) := by
  rw [exec_dbStep h, hpoll, respEmission_some]

/-- Settles O18, by the two rows of Up. -/
theorem dbStepInUp : Obligations.DbStepInUp := by
  unfold Obligations.DbStepInUp
  intro s ch raw c h hs
  exact ⟨fun hr => exec_dbStep_of_quiet h (dbPoll_up_of_none hs hr),
    fun hr => exec_dbStep_of_quiet h (dbPoll_up_of_code hs hr)⟩

/-- Settles O19, by the four rows of Debounce; the confirm row goes through Pressed. -/
theorem dbStepInDebounce : Obligations.DbStepInDebounce := by
  unfold Obligations.DbStepInDebounce
  intro s ch raw c h hs
  exact ⟨fun hr => exec_dbStep_of_quiet h (dbPoll_debounce_of_none hs hr),
    fun hr hc => exec_dbStep_of_quiet h (dbPoll_debounce_of_other hs hr hc),
    fun hr hc hel => exec_dbStep_of_emission h (dbPoll_debounce_of_elapsed hs hr hc hel),
    fun hr hc hel => exec_dbStep_of_quiet h (dbPoll_debounce_of_early hs hr hc hel)⟩

/-- Settles O21, by the three rows of Down. -/
theorem dbStepInDown : Obligations.DbStepInDown := by
  unfold Obligations.DbStepInDown
  intro s ch raw c h hs
  exact ⟨fun hr => exec_dbStep_of_quiet h (dbPoll_down_of_lost hs hr),
    fun hr hc hel => exec_dbStep_of_emission h (dbPoll_down_of_elapsed hs hr hc hel),
    fun hr hc hel => exec_dbStep_of_quiet h (dbPoll_down_of_early hs hr hc hel)⟩

/-- Settles O22, by the two rows of Released. -/
theorem dbStepInReleased : Obligations.DbStepInReleased := by
  unfold Obligations.DbStepInReleased
  intro s ch raw c h hs
  exact ⟨fun hr => exec_dbStep_of_quiet h (dbPoll_released_of_none hs hr),
    fun hr => exec_dbStep_of_quiet h (dbPoll_released_of_code hs hr)⟩

/-- Settles O23, by the three rows of Held. -/
theorem dbStepInHeld : Obligations.DbStepInHeld := by
  unfold Obligations.DbStepInHeld
  intro s ch raw c h hs
  exact ⟨fun hr => exec_dbStep_of_emission h (dbPoll_held_of_lost hs hr),
    fun hr hc hel => exec_dbStep_of_emission h (dbPoll_held_of_elapsed hs hr hc hel),
    fun hr hc hel => exec_dbStep_of_quiet h (dbPoll_held_of_early hs hr hc hel)⟩

/-! ## The timestamp -/

/-- What R129 names as the reasons to set t0, of a poll cycle that takes c to c' and emits e: the state changes,
Debounce retracks, or Held repeats. -/
def SetsTimestamp (raw : Code) (c c' : DbCtx) (e : Option Code) : Prop :=
  c'.state ≠ c.state ∨ (c.state = .debounce ∧ raw ≠ noneRaw ∧ raw ≠ c.tracked)
    ∨ (c.state = .held ∧ c'.state = .held ∧ e ≠ none)

/-- The timestamp c' has is the one R129 gives it. -/
def TimestampLaw (now : Time) (raw : Code) (c c' : DbCtx) (e : Option Code) : Prop :=
  (SetsTimestamp raw c c' e ∧ c'.t0 = now) ∨ (¬ SetsTimestamp raw c c' e ∧ c'.t0 = c.t0)

section Timestamp
variable {now : Time} {raw : Code} {c c' : DbCtx} {e : Option Code}

theorem timestampLaw_of_state_ne (hs : c'.state ≠ c.state) (ht : c'.t0 = now) : TimestampLaw now raw c c' e :=
  .inl ⟨.inl hs, ht⟩

/-- A cycle that changes nothing and emits nothing keeps the law where Debounce has nothing to retrack. -/
theorem timestampLaw_of_unchanged (h : c.state = .debounce → raw ≠ noneRaw → raw = c.tracked) :
    TimestampLaw now raw c c none := by
  refine .inr ⟨?_, rfl⟩
  rintro (hne | ⟨hs, hr, hc⟩ | ⟨-, -, hemit⟩)
  · exact hne rfl
  · exact hc (h hs hr)
  · exact hemit rfl

/-- Every branch of Pressed leaves it and sets t0 (R125). -/
theorem armPressed_state_ne_and_t0 : (armPressed now raw c).state ≠ .pressed ∧ (armPressed now raw c).t0 = now := by
  unfold armPressed
  split_ifs <;> exact ⟨nofun, rfl⟩

end Timestamp

/-- One poll cycle keeps R129, state by state: each row changes the state, or retracks or repeats, or does nothing. -/
theorem dbPoll_timestampLaw (timing : Timing) (now : Time) (raw : Code) (c : DbCtx) :
    TimestampLaw now raw c (dbPoll timing now raw c).1 (dbPoll timing now raw c).2 := by
  cases hs : c.state
  case up =>
    by_cases hr : raw = noneRaw
    · rw [dbPoll_up_of_none hs hr]
      exact timestampLaw_of_unchanged (by simp [hs])
    · rw [dbPoll_up_of_code hs hr]
      exact timestampLaw_of_state_ne (by simp [hs]) rfl
  case debounce =>
    by_cases hr : raw = noneRaw
    · rw [dbPoll_debounce_of_none hs hr]
      exact timestampLaw_of_state_ne (by simp [hs]) rfl
    by_cases hc : raw = c.tracked
    · obtain hel | hel := le_or_gt timing.debounceTime.toNat (now - c.t0).toNat
      · rw [dbPoll_debounce_of_elapsed hs hr hc hel]
        exact timestampLaw_of_state_ne (by simp [hs]) rfl
      · rw [dbPoll_debounce_of_early hs hr hc hel]
        exact timestampLaw_of_unchanged fun _ _ => hc
    · rw [dbPoll_debounce_of_other hs hr hc]
      exact .inl ⟨.inr (.inl ⟨hs, hr, hc⟩), rfl⟩
  case pressed =>
    rw [dbPoll_pressed hs]
    obtain ⟨hstate, ht⟩ := armPressed_state_ne_and_t0 (now := now) (raw := raw) (c := c)
    exact timestampLaw_of_state_ne (hs ▸ hstate) ht
  case down =>
    by_cases hlost : raw = noneRaw ∨ raw ≠ c.tracked
    · rw [dbPoll_down_of_lost hs hlost]
      exact timestampLaw_of_state_ne (by simp [hs]) rfl
    obtain ⟨hr, hc⟩ := not_or.1 hlost
    obtain hel | hel := le_or_gt timing.holdTime.toNat (now - c.t0).toNat
    · rw [dbPoll_down_of_elapsed hs hr (not_not.1 hc) hel]
      exact timestampLaw_of_state_ne (by simp [hs]) rfl
    · rw [dbPoll_down_of_early hs hr (not_not.1 hc) hel]
      exact timestampLaw_of_unchanged (by simp [hs])
  case released =>
    by_cases hr : raw = noneRaw
    · rw [dbPoll_released_of_none hs hr]
      exact timestampLaw_of_state_ne (by simp [hs]) rfl
    · rw [dbPoll_released_of_code hs hr]
      exact timestampLaw_of_state_ne (by simp [hs]) rfl
  case held =>
    by_cases hlost : raw = noneRaw ∨ raw ≠ c.tracked
    · rw [dbPoll_held_of_lost hs hlost]
      exact timestampLaw_of_state_ne (by simp [hs]) rfl
    obtain ⟨hr, hc⟩ := not_or.1 hlost
    obtain hel | hel := le_or_gt timing.repeatTime.toNat (now - c.t0).toNat
    · rw [dbPoll_held_of_elapsed hs hr (not_not.1 hc) hel]
      exact .inl ⟨.inr (.inr ⟨hs, rfl, nofun⟩), rfl⟩
    · rw [dbPoll_held_of_early hs hr (not_not.1 hc) hel]
      exact timestampLaw_of_unchanged (by simp [hs])

theorem respEmission_ne_quiet_iff (e : Option Code) : respEmission e ≠ quiet ↔ e ≠ none := by
  cases e with
  | none => simp [respEmission_none]
  | some k => simp [respEmission_some, emits_ne_quiet]

/-- What a DB_STEP that passes its checks leaves in its channel and answers is the poll cycle's. -/
theorem dbPoll_of_exec_dbStep {s t : State} {ch : Chan} {raw : Code} {c c' : DbCtx} {v : Word}
    (h : dbReady s ch raw c) (hexec : exec (.dbStep ch raw) s = .next t) (hdb : t.db[ch.toNat]? = some c')
    (hresp : t.response = some ⟨v, 0⟩) :
    c' = (dbPoll s.timing s.now raw c).1 ∧ v = respEmission (dbPoll s.timing s.now raw c).2 := by
  rw [exec_dbStep h] at hexec
  cases hexec
  rw [State.dbAfter, List.getElem?_set_self (dbReady_lt h)] at hdb
  cases hdb
  cases hresp
  exact ⟨rfl, rfl⟩

/-- Settles O26: the poll cycle keeps R129, and the answer differs from `quiet` exactly when it emits. -/
theorem timestampRule : Obligations.TimestampRule := by
  unfold Obligations.TimestampRule
  intro s t ch raw c c' v h hexec hdb hresp
  obtain ⟨rfl, rfl⟩ := dbPoll_of_exec_dbStep h hexec hdb hresp
  rw [respEmission_ne_quiet_iff]
  obtain ⟨hsets, ht⟩ | ⟨hkeeps, ht⟩ := dbPoll_timestampLaw s.timing s.now raw c
  · exact ⟨fun _ => ht, fun hnot => absurd hsets hnot⟩
  · exact ⟨fun hsets => absurd hsets hkeeps, fun _ => ht⟩

end Sys2Proof.Machine
end

section
/-! SUPPORT. QD_STEP in digital mode at the two detents (41_quadrature.md R153, R154): the rows of the decode step that
move the position counter, and the counter at its ends. -/

namespace Sys2Proof.Machine

/-- The decode step at T[8], past the last index: a detent up (R153). -/
theorem decodeRot_up {q : QdChan} (hseq : q.seq = 7) :
    decodeRot q 3 = ({ q with seq := 4, pos := q.pos + 1 }, .up) := by
  simp [decodeRot, hseq, seqT, seqTable]

/-- The decode step at T[0], before the first index: a detent down (R153). -/
theorem decodeRot_down {q : QdChan} (hseq : q.seq = 1) :
    decodeRot q 3 = ({ q with seq := 4, pos := q.pos - 1 }, .down) := by
  simp [decodeRot, hseq, seqT, seqTable]

/-- The channel of a QD_STEP that passes its checks has a context to write. -/
theorem qdReady_lt {s : State} {ch : Chan} {q : QdChan} (h : qdReady s ch q) : ch.toNat < s.qd.length :=
  (List.getElem?_eq_some_iff.1 h.2.1).1

/-- A digital QD_STEP that passes its checks is one decode step of its channel. -/
theorem exec_qdStep_digital {s : State} {ch : Chan} {inp : BitVec 16} {q : QdChan} {r : BitVec 2}
    (h : qdReady s ch q) (hd : digitalInput q inp r) :
    exec (.qdStep ch inp) s = .next (s.qdAfter ch (decodeRot q r).1 (respRot (decodeRot q r).2)) :=
  exec_next_iff.2 (.inl ⟨_, _, qdStepBody_ok_iff.2 ⟨_, quadStep_digital h hd, rfl, rfl⟩, rfl⟩)

theorem qdAfter_qd_self {s : State} {ch : Chan} {q q' : QdChan} {v : Word} (h : qdReady s ch q) :
    (s.qdAfter ch q' v).qd[ch.toNat]? = some q' :=
  List.getElem?_set_self (qdReady_lt h)

/-- Settles O43: either detent adds or subtracts 1 in 32 bits, and the event and the error are those of any detent. -/
theorem positionCounterWraps : Obligations.PositionCounterWraps := by
  unfold Obligations.PositionCounterWraps
  intro s ch inp q h hd
  have hexec := exec_qdStep_digital h hd
  refine ⟨fun hseq hpos => ?_, fun hseq hpos => ?_⟩
  · rw [decodeRot_up hseq, hpos] at hexec
    exact ⟨_, _, hexec, rfl, qdAfter_qd_self h, rfl, rfl⟩
  · rw [decodeRot_down hseq, hpos] at hexec
    exact ⟨_, _, hexec, rfl, qdAfter_qd_self h, rfl, rfl⟩

end Sys2Proof.Machine
end

section
/-! SUPPORT. CLASSIFY on a bank that exists (42_classifier.md R180 to R182): what it answers, with a match and with
none. -/

namespace Sys2Proof.Machine

/-- RESP of CLASSIFY with a match: the index is a 4-bit field, below the MATCH bit (R182). -/
theorem respMatch_some (i : Fin 16) : respMatch (some (BitVec.ofNat 4 i.val)) = BitVec.ofNat 32 (2 ^ 31 + i.val) := by
  revert i
  decide

/-- A CLASSIFY that passes its checks answers the scan of its bank and writes nothing. -/
theorem exec_classify {s : State} {b : Chan} {sample : BitVec 16} {k : Bank} (hb : b.toNat < s.params.nBank)
    (hk : s.bank[b.toNat]? = some k) (hsample : sample.toNat < 2 ^ s.params.sampleW) :
    exec (.classify b sample) s =
      .next (s.answering (respMatch (classifyIn s.params.tolCmp k sample.toNat))) :=
  exec_next_iff.2 (.inl ⟨_, _, classifyBody_ok_iff.2 ⟨hb, hsample, k, hk, rfl, rfl⟩, rfl⟩)

/-- Settles O47: the scan of the bank finds the first match, or nothing where there is none, and CLASSIFY answers the
scan. -/
theorem classifyFindsTheFirstMatch : Obligations.ClassifyFindsTheFirstMatch := by
  unfold Obligations.ClassifyFindsTheFirstMatch
  intro s b sample k hb hk hsample
  rw [exec_classify hb hk hsample]
  refine ⟨fun i hfirst => ?_, fun hnone => ?_⟩
  · rw [classifyIn_of_firstMatch hfirst, respMatch_some]
  · rw [classifyIn_of_noMatch hnone, respMatch]

end Sys2Proof.Machine
end

section
/-! SUPPORT. Which command writes which context (10_state.md R23, R28; 43_config_access.md R203, R207): what CFG_WRITE
leaves of the contexts, and the one place in which each command that runs to its end writes. -/

namespace Sys2Proof.Machine

/-- The context QD[ch] of R28, without the control registers a `QdChan` holds beside it. -/
def QdChan.context (q : QdChan) : BitVec 4 × Word × BitVec 2 := (q.seq, q.pos, q.prev)

/-- A new value of a channel with the old context leaves every channel's context as it was. -/
theorem setQd_contexts {s : State} {ch : Chan} {q q' : QdChan} (hq : s.qd[ch.toNat]? = some q)
    (hctx : q'.context = q.context) : (s.setQd ch q').qd.map QdChan.context = s.qd.map QdChan.context := by
  obtain ⟨hlt, rfl⟩ := List.getElem?_eq_some_iff.1 hq
  rw [setQd_qd, List.map_set, hctx, ← List.map_set, List.set_getElem_self]

/-- A register write changes no context: of a quadrature channel it writes control registers alone (R207). -/
theorem write_contexts {s t : State} {v : Word} {r : Reg} (h : r.write s v = .ok t) :
    t.db = s.db ∧ t.qd.map QdChan.context = s.qd.map QdChan.context := by
  obtain ⟨x, rfl⟩ | ⟨-, rfl⟩ | ⟨ch, q, hq, ⟨-, rfl⟩ | ⟨-, rfl⟩⟩ | ⟨b, k, -, ⟨-, rfl⟩ | ⟨-, rfl⟩ | ⟨i, -, rfl⟩⟩ :=
    regWrite_cases h
  case inr.inr.inl.inl => exact ⟨rfl, setQd_contexts hq rfl⟩
  case inr.inr.inl.inr => exact ⟨rfl, setQd_contexts hq rfl⟩
  all_goals exact ⟨rfl, rfl⟩

/-- What a command that runs to its end writes of the contexts: DB_STEP the debounce context of its channel, QD_STEP
and QD_ANGLE the quadrature channel of theirs, every other command none. -/
theorem body_writes {i : Instr} {s u : State} {v : Word} (h : body i s = .ok (u, v)) :
    (∃ ch raw c, i = .dbStep ch raw ∧ u = s.setDb ch c)
      ∨ (∃ ch inp q, (i = .qdStep ch inp ∨ i = .qdAngle ch inp) ∧ u = s.setQd ch q)
      ∨ (u.db = s.db ∧ u.qd.map QdChan.context = s.qd.map QdChan.context) := by
  cases i with
  | nop =>
    cases h
    exact .inr (.inr ⟨rfl, rfl⟩)
  | dbStep ch raw =>
    obtain ⟨-, -, c, -, rfl, -⟩ := dbStepBody_ok_iff.1 h
    exact .inl ⟨ch, raw, _, rfl, rfl⟩
  | qdStep ch inp =>
    obtain ⟨r, -, rfl, -⟩ := qdStepBody_ok_iff.1 h
    exact .inr (.inl ⟨ch, inp, _, .inl rfl, rfl⟩)
  | qdAngle ch inp =>
    obtain ⟨r, -, -, rfl, -⟩ := qdAngleBody_ok_iff.1 h
    exact .inr (.inl ⟨ch, inp, _, .inr rfl, rfl⟩)
  | classify b x =>
    obtain ⟨-, -, k, -, rfl, -⟩ := classifyBody_ok_iff.1 h
    exact .inr (.inr ⟨rfl, rfl⟩)
  | joyClassify x y =>
    obtain ⟨-, -, kx, ky, -, -, rfl, -⟩ := joyClassifyBody_ok_iff.1 h
    exact .inr (.inr ⟨rfl, rfl⟩)
  | cfgRead a =>
    obtain ⟨w, -, hw⟩ := map_ok_iff.1 h
    cases hw
    exact .inr (.inr ⟨rfl, rfl⟩)
  | cfgWrite a d =>
    obtain ⟨w, hw, hu⟩ := map_ok_iff.1 h
    cases hu
    obtain ⟨r, -, -, -, hr⟩ := regWrite_ok_iff.1 hw
    exact .inr (.inr (write_contexts hr))

/-- The same of `exec`, because the response and a raised error are no part of the contexts. -/
theorem exec_writes {i : Instr} {s t : State} (h : exec i s = .next t) :
    (∃ ch raw c, i = .dbStep ch raw ∧ t.db = s.db.set ch.toNat c ∧ t.qd = s.qd)
      ∨ (∃ ch inp q, (i = .qdStep ch inp ∨ i = .qdAngle ch inp) ∧ t.db = s.db ∧ t.qd = s.qd.set ch.toNat q)
      ∨ (t.db = s.db ∧ t.qd.map QdChan.context = s.qd.map QdChan.context) := by
  obtain ⟨u, v, hbody, rfl⟩ | ⟨e, -, rfl⟩ := exec_next_iff.1 h
  · obtain ⟨ch, raw, c, hi, rfl⟩ | ⟨ch, inp, q, hi, rfl⟩ | hkept := body_writes hbody
    · exact .inl ⟨ch, raw, c, hi, rfl, rfl⟩
    · exact .inr (.inl ⟨ch, inp, q, hi, rfl, rfl⟩)
    · exact .inr (.inr hkept)
  · exact .inr (.inr ⟨rfl, rfl⟩)

/-- DB[k] is written by DB_STEP on channel k alone (R23, R203, R207). -/
theorem exec_db_of_ne_dbStep {i : Instr} {s t : State} {k : Nat} (h : exec i s = .next t)
    (hne : ∀ ch raw, i = .dbStep ch raw → ch.toNat ≠ k) : t.db[k]? = s.db[k]? := by
  obtain ⟨ch, raw, c, hi, hdb, -⟩ | ⟨-, -, -, -, hdb, -⟩ | ⟨hdb, -⟩ := exec_writes h
  · rw [hdb, List.getElem?_set_ne (hne ch raw hi)]
  · rw [hdb]
  · rw [hdb]

/-- The context QD[k] is written by QD_STEP and QD_ANGLE on channel k alone (R28, R203, R207). -/
theorem exec_context_of_ne_quad {i : Instr} {s t : State} {k : Nat} (h : exec i s = .next t)
    (hne : ∀ ch inp, i = .qdStep ch inp ∨ i = .qdAngle ch inp → ch.toNat ≠ k) :
    (t.qd[k]?).map QdChan.context = (s.qd[k]?).map QdChan.context := by
  obtain ⟨-, -, -, -, -, hqd⟩ | ⟨ch, inp, q, hi, -, hqd⟩ | ⟨-, hctx⟩ := exec_writes h
  · rw [hqd]
  · rw [hqd, List.getElem?_set_ne (hne ch inp hi)]
  · rw [← List.getElem?_map, hctx, List.getElem?_map]

/-- Settles O46, by the one place in which each command writes a context. -/
theorem contextsHaveOneWriter : Obligations.ContextsHaveOneWriter := by
  unfold Obligations.ContextsHaveOneWriter
  intro i s t h
  exact ⟨fun _ hne => exec_db_of_ne_dbStep h hne, fun _ hne => exec_context_of_ne_quad h hne⟩

end Sys2Proof.Machine
end

section
/-! SUPPORT. How a command from the port ends (60_exceptions.md R221 to R224): it runs to its end with RERR 0 and ERR
as it was, or raises one error on the state that has taken it from the port. -/

namespace Sys2Proof.Machine

/-- A command's step runs the body of one instruction to its end, or raises an error, of decoding or of the
instruction. -/
theorem step_command_cases {s t : State} {cmd data : Word} {now : Time} {rest : List Input}
    (hin : s.inputs = .command cmd data now :: rest) (h : step s = .next t) :
    (∃ i u v, body i { s with now := now, inputs := rest } = .ok (u, v) ∧ t = respond v u)
      ∨ (∃ e, t = raise e { s with now := now, inputs := rest }) := by
  rw [step_of_command hin, runCommand] at h
  cases hdec : decode cmd data with
  | error e =>
    rw [hdec] at h
    cases h
    exact .inr ⟨_, rfl⟩
  | ok i =>
    rw [hdec] at h
    obtain ⟨u, v, hbody, ht⟩ | ⟨e, -, ht⟩ := exec_next_iff.1 h
    · exact .inl ⟨i, u, v, hbody, ht⟩
    · exact .inr ⟨e, ht⟩

/-- A register write leaves ERR, which is read-only (R203). -/
theorem write_err {s t : State} {v : Word} {r : Reg} (h : r.write s v = .ok t) : t.err = s.err := by
  obtain ⟨x, rfl⟩ | ⟨-, rfl⟩ | ⟨ch, q, -, ⟨-, rfl⟩ | ⟨-, rfl⟩⟩ | ⟨b, k, -, ⟨-, rfl⟩ | ⟨-, rfl⟩ | ⟨i, -, rfl⟩⟩ :=
    regWrite_cases h
  all_goals rfl

/-- A command that runs to its end leaves ERR (R224). -/
theorem body_err {i : Instr} {s u : State} {v : Word} (h : body i s = .ok (u, v)) : u.err = s.err := by
  cases i with
  | nop =>
    cases h
    rfl
  | dbStep ch raw =>
    obtain ⟨-, -, c, -, rfl, -⟩ := dbStepBody_ok_iff.1 h
    rfl
  | qdStep ch inp =>
    obtain ⟨r, -, rfl, -⟩ := qdStepBody_ok_iff.1 h
    rfl
  | qdAngle ch inp =>
    obtain ⟨r, -, -, rfl, -⟩ := qdAngleBody_ok_iff.1 h
    rfl
  | classify b x =>
    obtain ⟨-, -, k, -, rfl, -⟩ := classifyBody_ok_iff.1 h
    rfl
  | joyClassify x y =>
    obtain ⟨-, -, kx, ky, -, -, rfl, -⟩ := joyClassifyBody_ok_iff.1 h
    rfl
  | cfgRead a =>
    obtain ⟨w, -, hw⟩ := map_ok_iff.1 h
    cases hw
    rfl
  | cfgWrite a d =>
    obtain ⟨w, hw, hu⟩ := map_ok_iff.1 h
    cases hu
    obtain ⟨r, -, -, -, hr⟩ := regWrite_ok_iff.1 hw
    exact write_err hr

/-- The numbers of R221. -/
theorem ErrCode.num_bounds (e : ErrCode) : 1 ≤ e.num ∧ e.num ≤ 8 := by cases e <;> decide

/-- RERR holds the code whole, so it names the ERR bit. -/
theorem ErrCode.bit_eq_rerr (e : ErrCode) : e.bit = BitVec.ofNat 32 (2 ^ e.rerr.toNat) := by cases e <;> rfl

/-- Settles O15: RERR is not 0 only where the step raised, and raising is `afterError`. -/
theorem errorsArePrecise : Obligations.ErrorsArePrecise := by
  unfold Obligations.ErrorsArePrecise
  intro s t cmd data now rest v r hin hstep hresp hr
  obtain ⟨i, u, w, -, rfl⟩ | ⟨e, rfl⟩ := step_command_cases hin hstep
  · cases hresp
    exact absurd rfl hr
  · cases hresp
    obtain ⟨hlow, hhigh⟩ := e.num_bounds
    exact ⟨e.num, hlow, hhigh, raise_eq_afterError _ e, rfl, rfl⟩

/-- Settles O17: a command that runs to its end leaves ERR, one that raises sets the bit RERR names, and reset writes
0. -/
theorem errIsSticky : Obligations.ErrIsSticky := by
  unfold Obligations.ErrIsSticky
  refine ⟨fun s t cmd data now rest hin hstep => ?_, fun s t rest hin hstep => ?_⟩
  · obtain ⟨i, u, v, hbody, rfl⟩ | ⟨e, rfl⟩ := step_command_cases hin hstep
    · exact ⟨v, 0, rfl, by rw [if_pos rfl, respond_err, body_err hbody]⟩
    · exact ⟨0, e.rerr, rfl, by rw [if_neg e.rerr_ne_zero, raise_err, e.bit_eq_rerr]⟩
  · rw [step_of_reset hin] at hstep
    cases hstep
    exact applyReset_err _

end Sys2Proof.Machine
end

section
/-! SUPPORT. The host's calls (R246, R247): what each call makes of a response, and which responses DB_STEP gives. -/

namespace Sys2Proof.Machine

/-- A host call is its command, and the host's reading of the response. -/
theorem hostCall_of_exec {i : Instr} {s t : State} {r : Response} (f : Response → Nat) (h : exec i s = .next t)
    (hresp : t.response = some r) : hostCall i s f = .next (t, f r) := by
  simp only [hostCall, h, hresp]

/-! ## The responses of DB_STEP -/

/-- What a poll cycle emits is the code the context tracked, and an Up context emits nothing (R134). -/
theorem dbPoll_emits_tracked {timing : Timing} {now : Time} {raw : Code} {c : DbCtx} {k : Code}
    (h : (dbPoll timing now raw c).2 = some k) : c.state ≠ .up ∧ k = c.tracked := by
  unfold dbPoll at h
  cases hs : c.state <;> simp only [hs] at h
  case up =>
    unfold armUp at h
    split_ifs at h
  case debounce =>
    unfold armDebounce at h
    split_ifs at h
    cases h
    exact ⟨nofun, rfl⟩
  case pressed => cases h
  case down =>
    unfold armDown at h
    split_ifs at h
    cases h
    exact ⟨nofun, rfl⟩
  case released =>
    unfold armReleased at h
    split_ifs at h
  case held =>
    unfold armHeld at h
    split_ifs at h <;> cases h <;> exact ⟨nofun, rfl⟩

/-- DB_STEP under the invariant answers an error, or an emission of a raw code below N_CODES or of none. -/
theorem exec_dbStep_response {s t : State} {ch : Chan} {raw : Code} {v : Word} {e : BitVec 4} (hinv : Invariant s)
    (h : exec (.dbStep ch raw) s = .next t) (hresp : t.response = some ⟨v, e⟩) :
    e ≠ 0 ∨ (e = 0 ∧ ∃ o : Option Code, v = respEmission o ∧ ∀ k, o = some k → k.toNat < s.params.nCodes) := by
  obtain ⟨u, w, hbody, rfl⟩ | ⟨code, -, rfl⟩ := exec_next_iff.1 h
  · obtain ⟨-, -, c, hc, -, rfl⟩ := dbStepBody_ok_iff.1 hbody
    cases hresp
    refine .inr ⟨rfl, _, rfl, fun k hk => ?_⟩
    obtain ⟨-, -, htracked⟩ := hinv.db c (List.mem_of_getElem? hc)
    obtain ⟨hup, rfl⟩ := dbPoll_emits_tracked hk
    exact htracked hup
  · cases hresp
    exact .inl code.rerr_ne_zero

/-! ## poll -/

theorem keymap_ne_zero {p : Params} {c : Code} (hwf : p.wf = true) (hc : c.toNat < p.nCodes) :
    p.keymap.getD c.toNat 0 ≠ 0 := by
  simp only [Params.wf, Params.mapperOk, Bool.and_eq_true, decide_eq_true_eq] at hwf
  obtain ⟨-, ⟨⟨hlen, hall⟩, -⟩, -⟩ := hwf
  exact of_decide_eq_true (all_getD (f := fun k => decide (k ≠ 0)) hlen hall hc)

/-- A code below N_CODES is not the sentinel, so its symbol is its entry of the table. -/
theorem keymapOf_of_lt {p : Params} {c : Code} (hwf : p.wf = true) (hc : c.toNat < p.nCodes) :
    keymapOf p c = p.keymap.getD c.toNat 0 := by
  obtain ⟨⟨-, hcodes⟩, -⟩ := wf_ranges hwf
  refine if_neg fun hnone => ?_
  rw [hnone, show noneRaw.toNat = 255 from rfl] at hc
  omega

theorem respEmission_some_ev (c : Code) : (respEmission (some c)).getLsbD 31 = true := by
  simp [respEmission]

theorem respEmission_some_code (c : Code) : (respEmission (some c)).extractLsb' 0 8 = c := by
  ext i hi
  interval_cases i <;> simp [respEmission, BitVec.getLsbD_eq_getElem]

theorem pollSymbol_of_error (p : Params) (v : Word) {e : BitVec 4} (he : e ≠ 0) : pollSymbol p ⟨v, e⟩ = 0 :=
  if_neg fun h => he h.1

theorem pollSymbol_of_quiet (p : Params) : pollSymbol p ⟨quiet, 0⟩ = 0 := rfl

theorem pollSymbol_of_emission (p : Params) (c : Code) : pollSymbol p ⟨respEmission (some c), 0⟩ = keymapOf p c := by
  rw [pollSymbol, if_pos ⟨rfl, respEmission_some_ev c⟩, respEmission_some_code]

/-- `poll` gives a symbol exactly on an emission, and it is the emitted code's. -/
theorem pollSymbol_of_dbStep {s t : State} {ch : Chan} {raw : Code} {v : Word} {e : BitVec 4} (hinv : Invariant s)
    (h : exec (.dbStep ch raw) s = .next t) (hresp : t.response = some ⟨v, e⟩) :
    (pollSymbol s.params ⟨v, e⟩ ≠ 0 ↔ e = 0 ∧ v.getLsbD 31 = true)
      ∧ ∀ c : Code, e = 0 → v = emits c → pollSymbol s.params ⟨v, e⟩ = s.params.keymap.getD c.toNat 0 := by
  obtain he | ⟨rfl, o, rfl, hlt⟩ := exec_dbStep_response hinv h hresp
  · rw [pollSymbol_of_error _ _ he]
    exact ⟨iff_of_false (fun hne => hne rfl) fun hev => he hev.1, fun c h0 _ => absurd h0 he⟩
  cases o with
  | none =>
    rw [respEmission_none, pollSymbol_of_quiet]
    exact ⟨by decide, fun c _ hv => absurd hv.symm (emits_ne_quiet c)⟩
  | some k =>
    have hk := hlt k rfl
    rw [pollSymbol_of_emission, keymapOf_of_lt hinv.params hk]
    refine ⟨iff_of_true (keymap_ne_zero hinv.params hk) ⟨rfl, respEmission_some_ev k⟩, fun c _ hv => ?_⟩
    rw [← respEmission_some c] at hv
    rw [← respEmission_some_code k, hv, respEmission_some_code c]

/-! ## poll_rotation and angle -/

theorem rotationSymbol_up (p : Params) : rotationSymbol p ⟨1, 0⟩ = p.rotmapUp := rfl

theorem rotationSymbol_down (p : Params) : rotationSymbol p ⟨2, 0⟩ = p.rotmapDown := rfl

theorem rotationSymbol_of_none {p : Params} {v : Word} {e : BitVec 4} (h : e ≠ 0 ∨ v = 0) :
    rotationSymbol p ⟨v, e⟩ = 0 :=
  if_pos (h.imp_right fun hv => by rw [hv]; rfl)

theorem angleResult_eq (v : Word) (e : BitVec 4) : angleResult ⟨v, e⟩ = v.toNat / 2 ^ 16 := by
  have hv := v.isLt
  simp only [angleResult, BitVec.extractLsb'_toNat, Nat.shiftRight_eq_div_pow]
  omega

/-- Settles O60: each call is its command with one reading of the response, case by case of that reading. -/
theorem hostCallsReadTheResponse : Obligations.HostCallsReadTheResponse := by
  unfold Obligations.HostCallsReadTheResponse
  refine ⟨fun s t ch raw v e hinv h hresp => ?_, fun s t ch inp v e h hresp => ?_, fun s t ch inp v e h hresp => ?_⟩
  · exact ⟨_, hostCall_of_exec _ h hresp, pollSymbol_of_dbStep hinv h hresp⟩
  · refine ⟨_, hostCall_of_exec _ h hresp, ?_, ?_, rotationSymbol_of_none⟩
    · rintro ⟨rfl, rfl⟩
      exact rotationSymbol_up _
    · rintro ⟨rfl, rfl⟩
      exact rotationSymbol_down _
  · rw [angle, hostCall_of_exec _ h hresp, angleResult_eq]

end Sys2Proof.Machine
end

section
/-! SUPPORT. Encoding and decoding are inverse (30_encoding.md R83 to R90, R93, R97): the fields of a word built from
its operands, the word built from its fields, and the one row that a word's opcode chooses. -/

namespace Sys2Proof

/-! ## The fields of a word built from its operands -/

section Fields
variable {w m k : Nat}

/-- A field placed at bit k is read back at bit k. -/
theorem extract_placed_self (x : BitVec w) (h : k + w ≤ 32) :
    (x.setWidth 32 <<< k : Word).extractLsb' k w = x := by
  ext i hi
  simp [BitVec.getLsbD_eq_getElem hi, show k + i < 32 by omega]

/-- A field placed at bit k leaves the bits below k 0. -/
theorem extract_placed_low (x : BitVec w) (h : m ≤ k) : (x.setWidth 32 <<< k : Word).extractLsb' 0 m = 0 := by
  ext i hi
  simp [show i < k by omega]

/-- A field at bit 0 is read back. -/
theorem extract_low_self (y : BitVec m) (h : m ≤ 32) : (y.setWidth 32).extractLsb' 0 m = y := by
  ext i hi
  simp [BitVec.getLsbD_eq_getElem hi, show i < 32 by omega]

/-- A field of m bits at bit 0 leaves the bits from m up 0. -/
theorem extract_low_high (y : BitVec m) (h : m ≤ k) : (y.setWidth 32).extractLsb' k w = 0 := by
  ext i hi
  simp [BitVec.getLsbD_of_ge y (k + i) (by omega)]

end Fields

/-- Two operands, one at bit k and one below it, under fixed bits that are 0 in the upper operand's field. -/
theorem high_field_of_word {w m k : Nat} {top : Word} (x : BitVec w) (y : BitVec m)
    (htop : top.extractLsb' k w = 0) (hx : k + w ≤ 32) (hy : m ≤ k) :
    (top ||| x.setWidth 32 <<< k ||| y.setWidth 32).extractLsb' k w = x := by
  simp [BitVec.extractLsb'_or, htop, extract_placed_self x hx, extract_low_high y hy]

/-- The same word, read in the lower operand's field. -/
theorem low_field_of_word {w m k : Nat} {top : Word} (x : BitVec w) (y : BitVec m)
    (htop : top.extractLsb' 0 m = 0) (hm : m ≤ 32) (hy : m ≤ k) :
    (top ||| x.setWidth 32 <<< k ||| y.setWidth 32).extractLsb' 0 m = y := by
  simp [BitVec.extractLsb'_or, htop, extract_placed_low x hy, extract_low_self y hm]

theorem chField_of_word {m : Nat} {top : Word} (ch : Chan) (y : BitVec m) (htop : chField top = 0) (hm : m ≤ 24) :
    chField (top ||| ch.setWidth 32 <<< 24 ||| y.setWidth 32) = ch :=
  high_field_of_word ch y htop (by decide) hm

theorem inField_of_word {top : Word} (ch : Chan) (inp : BitVec 16) (htop : inField top = 0) :
    inField (top ||| ch.setWidth 32 <<< 24 ||| inp.setWidth 32) = inp :=
  low_field_of_word ch inp htop (by decide) (by decide)

/-- A word of fixed bits and an address. -/
theorem addrField_of_word {top : Word} (a : Addr) (htop : addrField top = 0) :
    addrField (top ||| a.setWidth 32) = a := by
  simp only [addrField] at htop ⊢
  simp [BitVec.extractLsb'_or, htop, extract_low_self a]

/-! ## Rows and opcodes -/

/-- Every row fixes the opcode. -/
theorem opField_mask : ∀ r ∈ opcodeMap, opField r.mask = BitVec.allOnes 4 := by decide

theorem row_eq_of_opField_eq : ∀ r ∈ opcodeMap, ∀ r' ∈ opcodeMap, opField r.value = opField r'.value → r = r' := by
  decide

theorem row_opField_le : ∀ r ∈ opcodeMap, (opField r.value).toNat ≤ 7 := by decide

theorem row_mem (i : Instr) : i.row ∈ opcodeMap := by cases i <;> simp [Instr.row, opcodeMap]

/-- A word that matches a row has the row's opcode. -/
theorem opField_of_matches {r : Row} {cmd : Word} (hr : r ∈ opcodeMap) (h : cmd &&& r.mask = r.value) :
    opField cmd = opField r.value := by
  have hmask := opField_mask r hr
  rw [← h]
  simp only [opField, BitVec.extractLsb'_and] at hmask ⊢
  rw [hmask, BitVec.and_allOnes]

/-- OP of an instruction (R82). -/
def Instr.opcode : Instr → Nat
  | .nop => 0
  | .dbStep _ _ => 1
  | .qdStep _ _ => 2
  | .qdAngle _ _ => 3
  | .classify _ _ => 4
  | .joyClassify _ _ => 5
  | .cfgRead _ => 6
  | .cfgWrite _ _ => 7

theorem opField_row (i : Instr) : (opField i.row.value).toNat = i.opcode := by
  cases i <;> rw [Instr.row] <;> rfl

/-- A word with an opcode of the map is decoded by the check of the opcode's row. -/
theorem decode_eq_checkRow {cmd : Word} (data : Word) (h : (opField cmd).toNat ≤ 7) :
    ∃ i : Instr, (opField cmd).toNat = i.opcode ∧ decode cmd data = checkRow i.row cmd i := by
  obtain ⟨hop, e⟩ | ⟨hop, e⟩ | ⟨hop, e⟩ | ⟨hop, e⟩ | ⟨hop, e⟩ | ⟨hop, e⟩ | ⟨hop, e⟩ | ⟨hop, e⟩ | ⟨hop, -⟩ :=
    decode_cases (cmd := cmd) (data := data) rfl
  case inr.inr.inr.inr.inr.inr.inr.inr => omega
  · exact ⟨.nop, congrArg BitVec.toNat hop, e⟩
  · exact ⟨.dbStep _ _, congrArg BitVec.toNat hop, e⟩
  · exact ⟨.qdStep _ _, congrArg BitVec.toNat hop, e⟩
  · exact ⟨.qdAngle _ _, congrArg BitVec.toNat hop, e⟩
  · exact ⟨.classify _ _, congrArg BitVec.toNat hop, e⟩
  · exact ⟨.joyClassify _ _, congrArg BitVec.toNat hop, e⟩
  · exact ⟨.cfgRead _, congrArg BitVec.toNat hop, e⟩
  · exact ⟨.cfgWrite _ _, congrArg BitVec.toNat hop, e⟩

/-- An instruction's own word matches its row. -/
theorem encodeCmd_matches (i : Instr) : encodeCmd i &&& i.row.mask = i.row.value := by
  cases i with
  | nop => exact Laws.RowMatch.nop
  | dbStep ch raw => exact Laws.RowMatch.dbStep ch raw
  | qdStep ch inp => exact Laws.RowMatch.qdStep ch inp
  | qdAngle ch inp => exact Laws.RowMatch.qdAngle ch inp
  | classify b sample => exact Laws.RowMatch.classify b sample
  | joyClassify x y => exact Laws.RowMatch.joyClassify x y
  | cfgRead a => exact Laws.RowMatch.cfgRead a
  | cfgWrite a v => exact Laws.RowMatch.cfgWrite a v

/-- An instruction's own word has the instruction's opcode. -/
theorem opField_encodeCmd (i : Instr) : (opField (encodeCmd i)).toNat = i.opcode := by
  rw [opField_of_matches (row_mem i) (encodeCmd_matches i), opField_row]

theorem decode_encode (i : Instr) : decode (encodeCmd i) (encodeData i) = .ok i := by
  have hcheck : ∀ j, checkRow i.row (encodeCmd i) j = .ok j := fun j => if_pos (encodeCmd_matches i)
  unfold decode
  rw [opField_encodeCmd]
  cases i with
  | nop => exact hcheck _
  | dbStep ch raw =>
    refine (hcheck _).trans ?_
    rw [encodeCmd, chField_of_word ch raw rfl (by decide), rawField,
      low_field_of_word ch raw rfl (by decide) (by decide)]
  | qdStep ch inp =>
    refine (hcheck _).trans ?_
    rw [encodeCmd, chField_of_word ch inp rfl (by decide), inField_of_word ch inp rfl]
  | qdAngle ch inp =>
    refine (hcheck _).trans ?_
    rw [encodeCmd, chField_of_word ch inp rfl (by decide), inField_of_word ch inp rfl]
  | classify b sample =>
    refine (hcheck _).trans ?_
    rw [encodeCmd, chField_of_word b sample rfl (by decide), inField_of_word b sample rfl]
  | joyClassify x y =>
    refine (hcheck _).trans ?_
    rw [encodeCmd, xField, yField, high_field_of_word x y rfl (by decide) (by decide),
      low_field_of_word x y rfl (by decide) (by decide)]
  | cfgRead a =>
    refine (hcheck _).trans ?_
    rw [encodeCmd, addrField_of_word a rfl]
  | cfgWrite a v =>
    refine (hcheck _).trans ?_
    rw [encodeCmd, addrField_of_word a rfl, encodeData]

/-! ## The word built from its fields -/

section Words
variable (cmd : Word)

theorem operands_ch_raw :
    cmd &&& ~~~rowDbStep.mask = (chField cmd).setWidth 32 <<< 24 ||| (rawField cmd).setWidth 32 := by
  ext i hi
  simp only [rowDbStep, chField, rawField]
  interval_cases i <;> simp

theorem operands_ch_in :
    cmd &&& ~~~rowQdStep.mask = (chField cmd).setWidth 32 <<< 24 ||| (inField cmd).setWidth 32 := by
  ext i hi
  simp only [rowQdStep, chField, inField]
  interval_cases i <;> simp

theorem operands_xy :
    cmd &&& ~~~rowJoyClassify.mask = (xField cmd).setWidth 32 <<< 12 ||| (yField cmd).setWidth 32 := by
  ext i hi
  simp only [rowJoyClassify, xField, yField]
  interval_cases i <;> simp

theorem operands_addr : cmd &&& ~~~rowCfgRead.mask = (addrField cmd).setWidth 32 := by
  ext i hi
  simp only [rowCfgRead, addrField]
  interval_cases i <;> simp

end Words

/-- A word that matches a row is the row's fixed bits and its operands. -/
theorem word_of_matches {r : Row} {cmd x : Word} (h : cmd &&& r.mask = r.value) (hx : cmd &&& ~~~r.mask = x) :
    r.value ||| x = cmd := by
  rw [← h, ← hx]
  ext i hi
  cases hm : r.mask[i] <;> simp [hm]

/-- Settles O2: the word of an instruction matches its row and holds its operands in their fields, and a word that
matches a row is that row's fixed bits with the fields it is decoded to. -/
theorem decodeEncodeRoundTrip : Obligations.DecodeEncodeRoundTrip := by
  unfold Obligations.DecodeEncodeRoundTrip
  refine ⟨decode_encode, fun cmd data i hdec => ?_⟩
  obtain ⟨-, e⟩ | ⟨-, e⟩ | ⟨-, e⟩ | ⟨-, e⟩ | ⟨-, e⟩ | ⟨-, e⟩ | ⟨-, e⟩ | ⟨-, e⟩ | ⟨-, e⟩ := decode_cases hdec
  case inr.inr.inr.inr.inr.inr.inr.inr => cases e
  all_goals obtain ⟨hm, rfl⟩ := checkRow_ok e.symm
  · exact ⟨word_of_matches (x := 0) hm (BitVec.and_zero ..), nofun⟩
  · exact ⟨(BitVec.or_assoc ..).trans (word_of_matches hm (operands_ch_raw cmd)), nofun⟩
  · exact ⟨(BitVec.or_assoc ..).trans (word_of_matches hm (operands_ch_in cmd)), nofun⟩
  · exact ⟨(BitVec.or_assoc ..).trans (word_of_matches hm (operands_ch_in cmd)), nofun⟩
  · exact ⟨(BitVec.or_assoc ..).trans (word_of_matches hm (operands_ch_in cmd)), nofun⟩
  · exact ⟨(BitVec.or_assoc ..).trans (word_of_matches hm (operands_xy cmd)), nofun⟩
  · exact ⟨word_of_matches hm (operands_addr cmd), nofun⟩
  · exact ⟨word_of_matches hm (operands_addr cmd), fun _ => rfl⟩

/-- Settles O3: rows differ in their opcodes, so a word matches one row at most, and the row of its opcode, where there
is one, is the row whose check decodes it. -/
theorem everyWordIsOneRowOrAnError : Obligations.EveryWordIsOneRowOrAnError := by
  unfold Obligations.EveryWordIsOneRowOrAnError
  intro cmd data
  refine ⟨fun r hr hm => ⟨fun r' hr' hm' => ?_, ?_⟩,
    fun hnone => ⟨Machine.decode_of_opcode_ge_eight data, fun hop => ?_⟩⟩
  · exact row_eq_of_opField_eq r' hr' r hr ((opField_of_matches hr' hm').symm.trans (opField_of_matches hr hm))
  · have hop := opField_of_matches hr hm
    obtain ⟨i, hi, hdec⟩ := decode_eq_checkRow data (hop ▸ row_opField_le r hr)
    rw [hop, ← opField_row] at hi
    obtain rfl := row_eq_of_opField_eq r hr _ (row_mem i) (BitVec.eq_of_toNat_eq hi)
    exact ⟨i, hdec.trans (if_pos hm), rfl⟩
  · obtain ⟨i, -, hdec⟩ := decode_eq_checkRow data hop
    exact hdec.trans (if_neg (hnone _ (row_mem i)))

/-- Settles O1: the eight words are evaluated. -/
theorem exampleWordsDecode : Obligations.ExampleWordsDecode := by
  unfold Obligations.ExampleWordsDecode
  decide

end Sys2Proof

namespace Sys2Proof.Machine

theorem runCommand_of_decode {cmd data : Word} {i : Instr} (now : Time) (s : State) (h : decode cmd data = .ok i) :
    runCommand cmd data now s = exec i { s with now := now } := by
  simp only [runCommand, h]

/-- Settles O5, by what a step on a command and a decoded command are. -/
theorem stepRunsTheDecodedCommand : Obligations.StepRunsTheDecodedCommand := by
  unfold Obligations.StepRunsTheDecodedCommand
  intro s cmd data now rest i hin hdec
  exact (step_of_command hin).trans (runCommand_of_decode now _ hdec)

end Sys2Proof.Machine
end

section
/-! SUPPORT. The invariant (10_state.md R25, R26, R29, R37, R41, R206): it holds after reset, every command's writes
keep it, and under it no command meets a fault, so every run from reset goes on (60_exceptions.md R250). -/

namespace Sys2Proof.Machine

/-! ## After reset -/

theorem dbAtReset_ok (p : Params) : DbCtx.atReset.ok p := ⟨nofun, iff_of_true rfl rfl, fun h => absurd rfl h⟩

theorem qdAtReset_ok {p : Params} (hwf : p.wf = true) {c : Nat} (hc : c < p.nQd) : (QdChan.atReset p c).ok p :=
  ⟨⟨(by decide : 1 ≤ (4#4).toNat), (by decide : (4#4).toNat ≤ 7)⟩,
    detents_ok ((wf_constructionValid hwf).qdDetents c hc), qdCtrl_ok ((wf_constructionValid hwf).qdCtrl c hc)⟩

theorem bankAtReset_ok {p : Params} (hwf : p.wf = true) {b : Nat} (hb : b < p.nBank) : (Bank.atReset p b).ok p := by
  obtain ⟨-, -, -, -, -, hsample⟩ := wf_ranges hwf
  refine ⟨level_ok hsample ((wf_constructionValid hwf).bankTol b hb), fun i => ?_⟩
  simp only [Bank.atReset, refsOfWords_get]
  exact level_ok hsample ((wf_constructionValid hwf).bankRef b hb i i.isLt)

theorem invariant_resetOf {p : Params} (hwf : p.wf = true) : Invariant (State.resetOf p) where
  params := hwf
  dbCount := List.length_replicate
  qdCount := by simp [State.resetOf]
  bankCount := by simp [State.resetOf]
  db := fun c hc => (List.eq_of_mem_replicate hc) ▸ dbAtReset_ok p
  qd := by
    simp only [State.resetOf, List.mem_map, List.mem_range]
    rintro _ ⟨c, hc, rfl⟩
    exact qdAtReset_ok hwf hc
  bank := by
    simp only [State.resetOf, List.mem_map, List.mem_range]
    rintro _ ⟨b, hb, rfl⟩
    exact bankAtReset_ok hwf hb
  joy := joyCtrl_ok (wf_constructionValid hwf).joyCtrl
  err := BitVec.zero_and

/-- Settles O11: each part of the state after reset is legal, because each construction value passed its check. -/
theorem everyResetMeetsTheInvariant : Obligations.EveryResetMeetsTheInvariant := by
  unfold Obligations.EveryResetMeetsTheInvariant
  exact fun p hwf => invariant_resetOf hwf

/-- Settles O10: State.reset is the reset of a well-formed configuration. -/
theorem startMeetsTheInvariant : Obligations.StartMeetsTheInvariant :=
  invariant_resetOf (p := Params.testInstance) (by decide)

/-- Settles O8, by what a step on RST is. -/
theorem resetInputRestoresEverything : Obligations.ResetInputRestoresEverything := by
  unfold Obligations.ResetInputRestoresEverything
  intro s rest hin
  exact ⟨_, step_of_reset hin, rfl, rfl⟩

/-! ## What a command's writes keep -/

/-- The states a command can leave: the invariant holds and the parameters are those of s. -/
def KeepsInvariant (s t : State) : Prop := Invariant t ∧ t.params = s.params

theorem keepsInvariant_raise {s : State} (h : Invariant s) (e : ErrCode) : KeepsInvariant s (raise e s) :=
  ⟨⟨h.params, h.dbCount, h.qdCount, h.bankCount, h.db, h.qd, h.bank, h.joy, errBit_ok e _ h.err⟩, rfl⟩

theorem db_ok {s : State} (h : Invariant s) {k : Nat} {c : DbCtx} (hc : s.db[k]? = some c) : c.ok s.params :=
  h.db c (List.mem_of_getElem? hc)

theorem qd_ok {s : State} (h : Invariant s) {k : Nat} {q : QdChan} (hq : s.qd[k]? = some q) : q.ok s.params :=
  h.qd q (List.mem_of_getElem? hq)

theorem bank_ok {s : State} (h : Invariant s) {k : Nat} {b : Bank} (hb : s.bank[k]? = some b) : b.ok s.params :=
  h.bank b (List.mem_of_getElem? hb)

/-- One decode step, with any new `prev`, keeps a channel legal. -/
theorem quadStep_result_ok {s : State} {ch : Chan} {inp : BitVec 16} {r : QdChan × Rot} (h : Invariant s)
    (hr : quadStep ch inp s = .ok r) : r.1.ok s.params := by
  obtain ⟨q, x, p, hq, h1, h7, rfl, -⟩ := quadStep_ok hr
  obtain ⟨-, hdetents, hbank⟩ := qd_ok h hq
  obtain ⟨-, hctrl', hdetents'⟩ := decodeRot_fields { q with prev := p } x
  exact ⟨decodeRot_seq ⟨h1, h7⟩, by rw [hdetents']; exact hdetents, by rw [hctrl']; exact hbank⟩

/-- A reference set to a level within the sample width keeps a bank legal. -/
theorem bank_ok_setRef {p : Params} {k : Bank} {i : BitVec 4} {x : Level} (hk : k.ok p) (hx : x.toNat < 2 ^ p.sampleW) :
    Bank.ok p { k with refs := k.refs.set i.toNat x i.isLt } := by
  obtain ⟨htol, hrefs⟩ := hk
  refine ⟨htol, fun j => ?_⟩
  simp only [Vector.getElem_set]
  split
  · exact hx
  · exact hrefs j

/-- A register write that passed its check keeps the invariant (R206). -/
theorem write_keepsInvariant {s t : State} {v : Word} {r : Reg} (h : Invariant s) (hv : r.valid s.params v = true)
    (hw : r.write s v = .ok t) : KeepsInvariant s t := by
  obtain ⟨-, -, -, -, -, hsample⟩ := wf_ranges h.params
  obtain ⟨x, rfl⟩ | ⟨rfl, rfl⟩ | ⟨ch, q, hq, ⟨rfl, rfl⟩ | ⟨rfl, rfl⟩⟩
    | ⟨b, k, hk, ⟨rfl, rfl⟩ | ⟨rfl, rfl⟩ | ⟨i, rfl, rfl⟩⟩ := regWrite_cases hw
  · exact ⟨⟨h.params, h.dbCount, h.qdCount, h.bankCount, h.db, h.qd, h.bank, h.joy, h.err⟩, rfl⟩
  · exact ⟨⟨h.params, h.dbCount, h.qdCount, h.bankCount, h.db, h.qd, h.bank, joyCtrl_ok hv, h.err⟩, rfl⟩
  · obtain ⟨hseq, hdetents, -⟩ := qd_ok h hq
    exact ⟨invariant_setQd h ⟨hseq, hdetents, qdCtrl_ok hv⟩, rfl⟩
  · obtain ⟨hseq, -, hbank⟩ := qd_ok h hq
    exact ⟨invariant_setQd h ⟨hseq, detents_ok hv, hbank⟩, rfl⟩
  · obtain ⟨htol, hrefs⟩ := bank_ok h hk
    exact ⟨invariant_setBank h ⟨htol, hrefs⟩, rfl⟩
  · obtain ⟨-, hrefs⟩ := bank_ok h hk
    exact ⟨invariant_setBank h ⟨level_ok hsample hv, hrefs⟩, rfl⟩
  · exact ⟨invariant_setBank h (bank_ok_setRef (bank_ok h hk) (level_ok hsample hv)), rfl⟩

/-- A command that runs to its end keeps the invariant. -/
theorem body_keepsInvariant {i : Instr} {s u : State} {v : Word} (h : Invariant s) (hb : body i s = .ok (u, v)) :
    KeepsInvariant s u := by
  cases i with
  | nop =>
    cases hb
    exact ⟨h, rfl⟩
  | dbStep ch raw =>
    obtain ⟨-, hraw, c, hc, rfl, -⟩ := dbStepBody_ok_iff.1 hb
    obtain ⟨⟨-, hcodes⟩, -⟩ := wf_ranges h.params
    exact ⟨invariant_setDb h (dbPoll_ok hcodes hraw (db_ok h hc)), rfl⟩
  | qdStep ch inp =>
    obtain ⟨r, hr, rfl, -⟩ := qdStepBody_ok_iff.1 hb
    exact ⟨invariant_setQd h (quadStep_result_ok h hr), rfl⟩
  | qdAngle ch inp =>
    obtain ⟨r, hr, -, rfl, -⟩ := qdAngleBody_ok_iff.1 hb
    exact ⟨invariant_setQd h (quadStep_result_ok h hr), rfl⟩
  | classify b x =>
    obtain ⟨-, -, k, -, rfl, -⟩ := classifyBody_ok_iff.1 hb
    exact ⟨h, rfl⟩
  | joyClassify x y =>
    obtain ⟨-, -, kx, ky, -, -, rfl, -⟩ := joyClassifyBody_ok_iff.1 hb
    exact ⟨h, rfl⟩
  | cfgRead a =>
    obtain ⟨w, -, hw⟩ := map_ok_iff.1 hb
    cases hw
    exact ⟨h, rfl⟩
  | cfgWrite a d =>
    obtain ⟨w, hw, hu⟩ := map_ok_iff.1 hb
    cases hu
    obtain ⟨r, -, -, hv, hr⟩ := regWrite_ok_iff.1 hw
    exact write_keepsInvariant h hv hr

theorem step_of_no_input {s : State} (h : s.inputs = []) : step s = .next (waitForCommand s) := by
  simp only [step, h]

/-- Settles O12: a step waits, resets, completes a command whose writes keep the invariant, or raises an error. -/
theorem everyStepKeepsTheInvariant : Obligations.EveryStepKeepsTheInvariant := by
  unfold Obligations.EveryStepKeepsTheInvariant
  intro s t h hstep
  cases hin : s.inputs with
  | nil =>
    rw [step_of_no_input hin] at hstep
    cases hstep
    exact ⟨invariant_ports h, rfl⟩
  | cons x rest =>
    cases x with
    | reset =>
      rw [step_of_reset hin] at hstep
      cases hstep
      exact ⟨invariant_ports (invariant_resetOf h.params), rfl⟩
    | command cmd data now =>
      have h' : Invariant { s with now := now, inputs := rest } := invariant_ports h
      obtain ⟨i, u, v, hbody, rfl⟩ | ⟨e, rfl⟩ := step_command_cases hin hstep
      · obtain ⟨hu, hp⟩ := body_keepsInvariant h' hbody
        exact ⟨invariant_respond hu, hp⟩
      · exact keepsInvariant_raise h' e

/-! ## How a command stops -/

/-- The context or bank a register is part of is there. -/
def Reg.present (s : State) : Reg → Prop
  | .dbState ch | .dbTracked ch | .dbT0 ch => s.db[ch.toNat]? ≠ none
  | .qdCtrl ch | .qdDetents ch | .qdSeq ch | .qdPos ch | .qdPrev ch => s.qd[ch.toNat]? ≠ none
  | .bankCount b | .bankTol b | .bankRef b _ => s.bank[b.toNat]? ≠ none
  | _ => True

theorem read_error {r : Reg} {s : State} {x : Stop} (h : r.read s = .error x) :
    ∃ f, x = .fault f ∧ ¬ r.present s := by
  cases r <;>
    simp only [Reg.read, map_error_iff, getDb_error_iff, getQd_error_iff, getBank_error_iff, reduceCtorEq] at h
  all_goals exact ⟨_, h.2, not_not.2 h.1⟩

theorem write_error {r : Reg} {s : State} {v : Word} {x : Stop} (hro : r.readOnly = false)
    (h : r.write s v = .error x) : ∃ f, x = .fault f ∧ ¬ r.present s := by
  cases r <;> simp only [Reg.readOnly, Bool.true_eq_false] at hro <;>
    simp only [Reg.write, map_error_iff, getQd_error_iff, getBank_error_iff, reduceCtorEq] at h
  all_goals exact ⟨_, h.2, not_not.2 h.1⟩

theorem regRead_error {s : State} {a : Addr} {x : Stop} (h : regRead s a = .error x) :
    x = .error .badAddress ∨ ∃ r f, decodeAddr s.params a = some r ∧ x = .fault f ∧ ¬ r.present s := by
  unfold regRead at h
  split at h
  · cases h
    exact .inl rfl
  · obtain ⟨f, hx, hr⟩ := read_error h
    exact .inr ⟨_, f, ‹_›, hx, hr⟩

theorem regWrite_error {s : State} {a : Addr} {v : Word} {x : Stop} (h : regWrite s a v = .error x) :
    x = .error .badAddress ∨ x = .error .readOnly ∨ x = .error .badValue
      ∨ ∃ r f, decodeAddr s.params a = some r ∧ x = .fault f ∧ ¬ r.present s := by
  unfold regWrite at h
  split at h
  · cases h
    exact .inl rfl
  · split at h
    · cases h
      exact .inr (.inl rfl)
    · rename_i hro
      split at h
      · cases h
        exact .inr (.inr (.inl rfl))
      · obtain ⟨f, hx, hr⟩ := write_error (Bool.not_eq_true _ ▸ hro) h
        exact .inr (.inr (.inr ⟨_, f, ‹_›, hx, hr⟩))

theorem qdAngleBody_error {s : State} {ch : Chan} {inp : BitVec 16} {x : Stop} (h : qdAngleBody ch inp s = .error x) :
    quadStep ch inp s = .error x
      ∨ (x = .fault .zeroDetents ∧ ∃ r, quadStep ch inp s = .ok r ∧ r.1.detents = 0) := by
  simp only [qdAngleBody, bind_error_iff] at h
  obtain h | ⟨r, hr, h⟩ := h
  · exact .inl h
  · split at h
    · cases h
      exact .inr ⟨rfl, r, hr, ‹_›⟩
    · cases h

section Present
variable {s : State} (h : Invariant s)
include h

theorem db_ne_none {k : Nat} (hk : k < s.params.nDb) : s.db[k]? ≠ none := by
  simp [h.dbCount, hk]

theorem qd_ne_none {k : Nat} (hk : k < s.params.nQd) : s.qd[k]? ≠ none := by
  simp [h.qdCount, hk]

theorem bank_ne_none {k : Nat} (hk : k < s.params.nBank) : s.bank[k]? ≠ none := by
  simp [h.bankCount, hk]

/-- Under the invariant every register an address decodes to is there (R20). -/
theorem present_of_decodeAddr {a : Addr} {r : Reg} (hr : decodeAddr s.params a = some r) : r.present s := by
  obtain ⟨-, hin⟩ := decodeAddr_some hr
  cases r
  case dbState | dbTracked | dbT0 => exact db_ne_none h hin
  case qdCtrl | qdDetents | qdSeq | qdPos | qdPrev => exact qd_ne_none h hin
  case bankCount | bankTol | bankRef => exact bank_ne_none h hin
  all_goals exact trivial

end Present

/-- How a command's body stops: with an error that its opcode's row of R222 lists, or with a fault of the model in a
state that the invariant excludes (log 8). -/
def StopsLegally (i : Instr) (s : State) (x : Stop) : Prop :=
  (∃ e, x = .error e ∧ e.num ∈ codesOf i.opcode) ∨ (∃ f, x = .fault f ∧ ¬ Invariant s)

theorem stopsLegally_error {i : Instr} {s : State} {x : Stop} {e : ErrCode} (hx : x = .error e)
    (he : e.num ∈ codesOf i.opcode := by simp [codesOf, Instr.opcode, ErrCode.num]) : StopsLegally i s x :=
  .inl ⟨e, hx, he⟩

theorem stopsLegally_fault {i : Instr} {s : State} {x : Stop} {f : Fault} (hx : x = .fault f)
    (hs : ¬ Invariant s) : StopsLegally i s x := .inr ⟨f, hx, hs⟩

theorem quadStep_stopsLegally {i : Instr} {s : State} {ch : Chan} {inp : BitVec 16} {x : Stop}
    (hi : i.opcode = 2 ∨ i.opcode = 3) (h : quadStep ch inp s = .error x) : StopsLegally i s x := by
  have hcodes : codesOf i.opcode = [2, 3, 4, 8] := by rcases hi with hi | hi <;> rw [hi] <;> rfl
  obtain ⟨hx, -⟩ | hx | hx | ⟨hx, hlt, hnone⟩ | ⟨hx, q, hq, hnone⟩ | ⟨hx, q, hq, hseq⟩ := quadStep_error h
  · exact stopsLegally_error hx (by rw [hcodes]; decide)
  · exact stopsLegally_error hx (by rw [hcodes]; decide)
  · exact stopsLegally_error hx (by rw [hcodes]; decide)
  · exact stopsLegally_fault hx fun hinv => qd_ne_none hinv hlt hnone
  · exact stopsLegally_fault hx fun hinv => bank_ne_none hinv (qd_ok hinv hq).2.2 hnone
  · exact stopsLegally_fault hx fun hinv => hseq (qd_ok hinv hq).1

theorem body_stopsLegally {i : Instr} {s : State} {x : Stop} (h : body i s = .error x) : StopsLegally i s x := by
  cases i with
  | nop => cases h
  | dbStep ch raw =>
    obtain ⟨hx, -⟩ | ⟨hx, -⟩ | ⟨hx, hlt, hnone⟩ := dbStepBody_error h
    · exact stopsLegally_error hx
    · exact stopsLegally_error hx
    · exact stopsLegally_fault hx fun hinv => db_ne_none hinv hlt hnone
  | qdStep ch inp =>
    have hquad : quadStep ch inp s = .error x := by
      simpa only [body, qdStepBody, bind_error_iff, pure_error_iff, and_false, exists_false, or_false] using h
    exact quadStep_stopsLegally (.inl rfl) hquad
  | qdAngle ch inp =>
    obtain hquad | ⟨hx, r, hr, hzero⟩ := qdAngleBody_error h
    · exact quadStep_stopsLegally (.inr rfl) hquad
    · exact stopsLegally_fault hx fun hinv => (quadStep_result_ok hinv hr).2.1 hzero
  | classify b y =>
    obtain hx | hx | ⟨hx, hlt, hnone⟩ := classifyBody_error h
    · exact stopsLegally_error hx
    · exact stopsLegally_error hx
    · exact stopsLegally_fault hx fun hinv => bank_ne_none hinv hlt hnone
  | joyClassify y z =>
    obtain hx | ⟨hx, hnone | hnone⟩ := joyClassifyBody_error h
    · exact stopsLegally_error hx
    · exact stopsLegally_fault hx fun hinv => bank_ne_none hinv hinv.joy.1 hnone
    · exact stopsLegally_fault hx fun hinv => bank_ne_none hinv hinv.joy.2 hnone
  | cfgRead a =>
    obtain hx | ⟨r, f, hr, hx, habsent⟩ := regRead_error (map_error_iff.1 h)
    · exact stopsLegally_error hx
    · exact stopsLegally_fault hx fun hinv => habsent (present_of_decodeAddr hinv hr)
  | cfgWrite a d =>
    obtain hx | hx | hx | ⟨r, f, hr, hx, habsent⟩ := regWrite_error (map_error_iff.1 h)
    · exact stopsLegally_error hx
    · exact stopsLegally_error hx
    · exact stopsLegally_error hx
    · exact stopsLegally_fault hx fun hinv => habsent (present_of_decodeAddr hinv hr)

/-! ## No fault under the invariant -/

theorem exec_runs {s : State} (h : Invariant s) (i : Instr) : ∃ t, exec i s = .next t := by
  rw [exec_eq_complete]
  refine complete_runs fun f hf => ?_
  obtain ⟨e, hx, -⟩ | ⟨f', -, hnot⟩ := body_stopsLegally hf
  · cases hx
  · exact hnot h

theorem step_runs {s : State} (h : Invariant s) : ∃ t, step s = .next t := by
  cases hin : s.inputs with
  | nil => exact ⟨_, step_of_no_input hin⟩
  | cons x rest =>
    cases x with
    | reset => exact ⟨_, step_of_reset hin⟩
    | command cmd data now =>
      cases hdec : decode cmd data with
      | error e => exact ⟨_, step_of_decode_error hin hdec⟩
      | ok i =>
        rw [step_of_command hin, runCommand_of_decode now _ hdec]
        exact exec_runs (invariant_ports h) i

/-- Settles O13: every fault comes from a state that the invariant excludes. -/
theorem noInputStopsTheBlock : Obligations.NoInputStopsTheBlock := by
  unfold Obligations.NoInputStopsTheBlock
  exact fun s h => step_runs h

/-- From a state that meets the invariant, k steps answer a next state that meets it. -/
theorem run_keepsInvariant {s : State} (k : Nat) (h : Invariant s) :
    ∃ t, Host.Core.run core k s = .next t ∧ Invariant t := by
  induction k generalizing s with
  | zero => exact ⟨s, rfl, h⟩
  | succ k ih =>
    obtain ⟨u, hu⟩ := step_runs h
    obtain ⟨t, ht, hinv⟩ := ih (everyStepKeepsTheInvariant s u h hu).1
    have hstep : core.step s = .next u := hu
    exact ⟨t, by simpa only [Host.Core.run, hstep] using ht, hinv⟩

/-- Settles O14: the invariant holds after reset, whatever is presented, and every run keeps it. -/
theorem everyRunFromResetGoesOn : Obligations.EveryRunFromResetGoesOn := by
  unfold Obligations.EveryRunFromResetGoesOn
  exact fun p inputs k hwf => run_keepsInvariant k (invariant_ports (invariant_resetOf hwf))

/-! ## The codes of each opcode -/

/-- A decoded command's opcode is its word's. -/
theorem opcode_of_decode {cmd data : Word} {i : Instr} (h : decode cmd data = .ok i) :
    (opField cmd).toNat = i.opcode := by
  rw [← (decodeEncodeRoundTrip.2 cmd data i h).1, opField_encodeCmd]

theorem codesOf_of_ge_eight {n : Nat} (h : 8 ≤ n) : codesOf n = [1] := by
  unfold codesOf
  split
  case h_9 => rfl
  all_goals omega

theorem ErrCode.rerr_toNat (e : ErrCode) : e.rerr.toNat = e.num := by cases e <;> rfl

/-- A decoding error is one that the opcode's row lists. -/
theorem decodeErr_mem_codes {cmd data : Word} {e : DecodeError} (h : decode cmd data = .error e) :
    (decodeErr e).num ∈ codesOf (opField cmd).toNat := by
  obtain hop | hop := Nat.lt_or_ge (opField cmd).toNat 8
  · obtain ⟨i, hi, hdec⟩ := decode_eq_checkRow data (Nat.le_of_lt_succ hop)
    rw [hdec] at h
    obtain ⟨-, rfl⟩ := checkRow_error h
    rw [hi]
    cases i <;> simp [codesOf, Instr.opcode, decodeErr, ErrCode.num]
  · rw [decode_of_opcode_ge_eight data hop] at h
    cases h
    rw [codesOf_of_ge_eight hop]
    exact List.mem_singleton.2 rfl

/-- A state in which every code can be raised: channel 0 is in analog mode, on a bank whose count is 0. -/
def raisingState : State := State.reset.setQd 0 ⟨4, 0, 3, ⟨.analog, false, 0⟩, 24⟩

theorem raisingState_invariant : Invariant raisingState := invariant_setQd startMeetsTheInvariant (by decide)

/-- The response of the next step. -/
def stepResponse (s : State) : Option Response :=
  match step s with
  | .next t => t.response
  | .fault _ => none
  | .refused _ => none

theorem step_of_stepResponse {s : State} {r : Response} (h : stepResponse s = some r) :
    ∃ t, step s = .next t ∧ t.response = some r := by
  unfold stepResponse at h
  split at h
  · exact ⟨_, ‹_›, h⟩
  · cases h
  · cases h

/-- A command word with opcode op that raises code k in `raisingState` with DATA all ones: by its reserved bits, a
channel or bank 15, an operand at its maximum, or an address that is unmapped, read-only or JOY_CTRL's. -/
def raisingWord (op k : Nat) : Word :=
  BitVec.ofNat 32 (op * 2 ^ 28) ||| match k with
    | 2 => if op = 5 then 0x01000000 else 0x00010000
    | 3 => 0x0F000000
    | 4 => if op = 1 then 0x000000FE else if op = 5 then 0x00FFFFFF else 0x0000FFFF
    | 5 => 0x00000FFF
    | 6 => 0x00000008
    | 7 => 0x00000009
    | _ => 0

theorem raisingWord_raises : ∀ op : BitVec 4, ∀ k ∈ codesOf op.toNat,
    opField (raisingWord op.toNat k) = op
      ∧ stepResponse { raisingState with inputs := [.command (raisingWord op.toNat k) 0xFFFFFFFF 0] }
        = some ⟨0, BitVec.ofNat 4 k⟩ := by
  decide +kernel

/-- Settles O16: a word's decoding error and a body's error are of the word's opcode, and `raisingWord` raises each. -/
theorem errorCodesOfEachCommand : Obligations.ErrorCodesOfEachCommand := by
  unfold Obligations.ErrorCodesOfEachCommand
  refine ⟨fun s t cmd data now rest hin hstep => ?_, fun op k hk => ?_⟩
  · rw [step_of_command hin] at hstep
    cases hdec : decode cmd data with
    | error e =>
      simp only [runCommand, hdec] at hstep
      cases hstep
      exact ⟨_, _, rfl, .inr (by rw [ErrCode.rerr_toNat]; exact decodeErr_mem_codes hdec)⟩
    | ok i =>
      rw [runCommand_of_decode now _ hdec] at hstep
      obtain ⟨u, v, -, rfl⟩ | ⟨e, hbody, rfl⟩ := exec_next_iff.1 hstep
      · exact ⟨v, 0, rfl, .inl rfl⟩
      · obtain ⟨e', he, hmem⟩ | ⟨f, hf, -⟩ := body_stopsLegally hbody
        · cases he
          exact ⟨_, _, rfl, .inr (by rw [ErrCode.rerr_toNat, opcode_of_decode hdec]; exact hmem)⟩
        · cases hf
  · obtain ⟨hop, hresp⟩ := raisingWord_raises op k hk
    obtain ⟨t, ht, hr⟩ := step_of_stepResponse hresp
    exact ⟨_, _, _, _, _, t, invariant_ports raisingState_invariant, hop, rfl, ht, hr⟩

end Sys2Proof.Machine
end

section
/-! SUPPORT. DB_STEP as a whole (40_debounce.md R120, R125, R130, R131, R134 to R137, 60_exceptions.md R234): its
errors, what it reads and writes, the four emissions, and sequences of polls of one channel. -/

namespace Sys2Proof.Machine

/-! ## Pressed -/

theorem armPressed_of_other {now : Time} {raw : Code} {c : DbCtx} (hr : raw ≠ noneRaw) (hc : raw ≠ c.tracked) :
    armPressed now raw c = ⟨.debounce, raw, now⟩ := by
  rw [armPressed, if_neg fun h => hc h.2, if_pos hr]

theorem armPressed_of_none {now : Time} {raw : Code} {c : DbCtx} (hr : raw = noneRaw) :
    armPressed now raw c = ⟨.released, c.tracked, now⟩ := by
  rw [armPressed, if_neg fun h => h.1 hr, if_neg (not_not.2 hr)]

/-- Settles O20, by the three branches of Pressed. -/
theorem dbStepInPressed : Obligations.DbStepInPressed := by
  unfold Obligations.DbStepInPressed
  intro s ch raw c h hs
  have hexec := exec_dbStep_of_quiet h (dbPoll_pressed hs)
  exact ⟨fun hr hc => by rw [hexec, armPressed_of_match hr hc], fun hr hc => by rw [hexec, armPressed_of_other hr hc],
    fun hr => by rw [hexec, armPressed_of_none hr]⟩

/-! ## Errors -/

/-- A command whose body raises e leaves the state after error number e.num. -/
theorem exec_of_error {i : Instr} {s : State} {e : ErrCode} (h : body i s = .error (.error e)) :
    exec i s = .next (s.afterError e.num) := by
  rw [exec_eq_complete, h, complete, raise_eq_afterError]

/-- A command whose body runs to its end answers its response on the state it leaves. -/
theorem exec_of_ok {i : Instr} {s u : State} {v : Word} (h : body i s = .ok (u, v)) :
    exec i s = .next (u.answering v) := by
  rw [exec_eq_complete, h]
  rfl

theorem bind_of_error {α β : Type} {x : Except Stop α} {f : α → Except Stop β} {e : Stop} (h : x = .error e) :
    (x >>= f) = .error e := bind_error_iff.2 (.inl h)

theorem bind_of_ok_error {α β : Type} {x : Except Stop α} {f : α → Except Stop β} {e : Stop} {a : α}
    (h : x = .ok a) (hf : f a = .error e) : (x >>= f) = .error e := bind_error_iff.2 (.inr ⟨a, h, hf⟩)

/-- Settles O24: the channel is checked before the raw code. -/
theorem dbStepErrors : Obligations.DbStepErrors := by
  unfold Obligations.DbStepErrors
  intro s ch raw
  refine ⟨fun hch => exec_of_error (e := .badChannel) ?_, fun hch hr hn => exec_of_error (e := .badOperand) ?_⟩
  · exact bind_of_error (checkChannel_error_iff.2 ⟨hch, rfl⟩)
  · exact bind_of_ok_error (a := ()) (checkChannel_ok_iff.2 hch) (bind_of_error (checkRaw_error_iff.2 ⟨⟨hr, hn⟩, rfl⟩))

/-! ## What DB_STEP reads and writes -/

/-- Mapping what a bind answers maps what its second half answers. -/
theorem map_bind_comm {α β γ : Type} (x : Except Stop α) (f : α → Except Stop β) (g : β → γ) :
    (x >>= f).map g = x >>= fun a => (f a).map g := by
  cases x <;> rfl

/-- The new context of channel ch and the emission, without the write: all that DB_STEP computes from the state. -/
def dbLocal (ch : Chan) (raw : Code) (s : State) : Except Stop (DbCtx × Option Code) := do
  checkChannel ch s.params.nDb
  checkRaw s.params raw
  let c ← s.getDb ch
  return dbPoll s.timing s.now raw c

theorem dbStepBody_eq_map (ch : Chan) (raw : Code) (s : State) :
    dbStepBody ch raw s = (dbLocal ch raw s).map (fun r => (s.setDb ch r.1, respEmission r.2)) := by
  simp only [dbStepBody, dbLocal, map_bind_comm]
  rfl

/-- It depends on the parameters, the channel's context, now and the three durations alone. -/
theorem dbLocal_congr {s u : State} {ch : Chan} {raw : Code} (hp : u.params = s.params)
    (hdb : u.db[ch.toNat]? = s.db[ch.toNat]?) (hnow : u.now = s.now)
    (h1 : u.timing.debounceTime = s.timing.debounceTime) (h2 : u.timing.holdTime = s.timing.holdTime)
    (h3 : u.timing.repeatTime = s.timing.repeatTime) : dbLocal ch raw u = dbLocal ch raw s := by
  have hget : u.getDb ch = s.getDb ch := by simp only [State.getDb, hdb]
  simp only [dbLocal, hp, hget, hnow, dbPoll_congr h1 h2 h3]

/-- DB_STEP that answers a next state either raised, or wrote one context of its channel. -/
theorem exec_dbStep_cases {s t : State} {ch : Chan} {raw : Code} (h : exec (.dbStep ch raw) s = .next t) :
    (∃ r, dbLocal ch raw s = .ok r ∧ t = s.dbAfter ch r.1 (respEmission r.2))
      ∨ (∃ e, dbLocal ch raw s = .error (.error e) ∧ t = raise e s) := by
  obtain ⟨u, v, hbody, rfl⟩ | ⟨e, hbody, rfl⟩ := exec_next_iff.1 h
  · obtain ⟨r, hr, hu⟩ := map_ok_iff.1 ((dbStepBody_eq_map ch raw s).symm.trans hbody)
    cases hu
    exact .inl ⟨r, hr, rfl⟩
  · exact .inr ⟨e, map_error_iff.1 ((dbStepBody_eq_map ch raw s).symm.trans hbody), rfl⟩

theorem exec_dbStep_of_local {s : State} {ch : Chan} {raw : Code} {r : DbCtx × Option Code}
    (h : dbLocal ch raw s = .ok r) : exec (.dbStep ch raw) s = .next (s.dbAfter ch r.1 (respEmission r.2)) :=
  exec_of_ok (i := .dbStep ch raw) ((dbStepBody_eq_map ch raw s).trans (map_ok_iff.2 ⟨r, h, rfl⟩))

theorem exec_dbStep_of_local_error {s : State} {ch : Chan} {raw : Code} {e : ErrCode}
    (h : dbLocal ch raw s = .error (.error e)) : exec (.dbStep ch raw) s = .next (raise e s) :=
  exec_next_iff.2 (.inr ⟨e, (dbStepBody_eq_map ch raw s).trans (map_error_iff.2 h), rfl⟩)

/-- Settles O27, by the two ways DB_STEP ends. -/
theorem dbStepWritesItsChannelOnly : Obligations.DbStepWritesItsChannelOnly := by
  unfold Obligations.DbStepWritesItsChannelOnly
  intro s t ch raw h
  obtain ⟨r, -, rfl⟩ | ⟨e, -, rfl⟩ := exec_dbStep_cases h
  · exact ⟨rfl, List.length_set, fun k hk => List.getElem?_set_ne (Ne.symm hk), fun _ => rfl,
      fun hnot => absurd ⟨_, rfl⟩ hnot⟩
  · exact ⟨rfl, rfl, fun _ _ => rfl, fun hc => absurd hc (raise_not_completed e s), fun _ => rfl⟩

/-- Settles O28: DB_STEP computes the same from both states, and writes or raises accordingly. -/
theorem dbStepReadsItsChannelOnly : Obligations.DbStepReadsItsChannelOnly := by
  unfold Obligations.DbStepReadsItsChannelOnly
  intro s u t ch raw hp hdb hnow h1 h2 h3 h
  have hlocal : dbLocal ch raw u = dbLocal ch raw s := dbLocal_congr hp hdb hnow h1 h2 h3
  obtain ⟨r, hr, rfl⟩ | ⟨e, he, rfl⟩ := exec_dbStep_cases h
  · refine ⟨_, exec_dbStep_of_local (hlocal.trans hr), rfl, ?_⟩
    simp only [State.dbAfter, List.getElem?_set_self', hdb]
  · exact ⟨_, exec_dbStep_of_local_error (hlocal.trans he), rfl, hdb⟩

/-! ## The dash registers -/

/-- Every command but CFG_READ and CFG_WRITE has the same body whatever the dash registers hold (R131). -/
theorem body_withDash {i : Instr} (s : State) (a b : Time) (hread : ∀ x, i ≠ .cfgRead x)
    (hwrite : ∀ x d, i ≠ .cfgWrite x d) :
    body i (s.withDash a b) = (body i s).map (fun r => (r.1.withDash a b, r.2)) := by
  cases i with
  | nop => rfl
  | dbStep ch raw =>
    simp only [body, dbStepBody_eq_map]
    rw [show dbLocal ch raw (s.withDash a b) = dbLocal ch raw s from dbLocal_congr rfl rfl rfl rfl rfl rfl]
    cases dbLocal ch raw s <;> rfl
  | qdStep ch inp =>
    simp only [body, qdStepBody, map_bind_comm]
    rfl
  | qdAngle ch inp =>
    simp only [body, qdAngleBody, map_bind_comm]
    refine bind_congr fun r => ?_
    split <;> rfl
  | classify c x =>
    simp only [body, classifyBody, map_bind_comm]
    rfl
  | joyClassify x y =>
    simp only [body, joyClassifyBody, map_bind_comm]
    rfl
  | cfgRead x => exact absurd rfl (hread x)
  | cfgWrite x d => exact absurd rfl (hwrite x d)

/-- Settles O29: the body computes the same, and an error raised on the state leaves the dash registers too. -/
theorem dashRegistersAreInert : Obligations.DashRegistersAreInert := by
  unfold Obligations.DashRegistersAreInert
  intro s t i a b hread hwrite h
  have hbody := body_withDash s a b hread hwrite
  obtain ⟨u, v, hu, rfl⟩ | ⟨e, he, rfl⟩ := exec_next_iff.1 h
  · exact exec_of_ok (hbody.trans (map_ok_iff.2 ⟨_, hu, rfl⟩))
  · exact exec_next_iff.2 (.inr ⟨e, hbody.trans (map_error_iff.2 he), rfl⟩)

/-! ## The four emissions (R134) -/

section Emissions
variable (timing : Timing) (now : Time) (raw : Code) (c : DbCtx)

/-- The raw code is the tracked one. -/
def Matching : Prop := raw ≠ noneRaw ∧ raw = c.tracked

/-- Debounce confirms its code. -/
def Confirms : Prop := c.state = .debounce ∧ Matching raw c ∧ timing.debounceTime.toNat ≤ (now - c.t0).toNat

/-- Down becomes Held. -/
def RepeatsFirst : Prop := c.state = .down ∧ Matching raw c ∧ timing.holdTime.toNat ≤ (now - c.t0).toNat

/-- Held repeats. -/
def RepeatsAgain : Prop := c.state = .held ∧ Matching raw c ∧ timing.repeatTime.toNat ≤ (now - c.t0).toNat

/-- Held loses its code. -/
def Releases : Prop := c.state = .held ∧ ¬ Matching raw c

/-- One of the four cases of R134. -/
def EmissionCase : Prop :=
  Confirms timing now raw c ∨ RepeatsFirst timing now raw c ∨ RepeatsAgain timing now raw c ∨ Releases raw c

variable {timing now raw c}

theorem not_matching_iff : ¬ Matching raw c ↔ raw = noneRaw ∨ raw ≠ c.tracked := by
  rw [Matching, not_and_or, not_not]

theorem dbPoll_of_confirms (h : Confirms timing now raw c) :
    dbPoll timing now raw c = (⟨.down, c.tracked, now⟩, some c.tracked) :=
  let ⟨hs, ⟨hr, hc⟩, hel⟩ := h
  dbPoll_debounce_of_elapsed hs hr hc hel

theorem dbPoll_of_repeatsFirst (h : RepeatsFirst timing now raw c) :
    dbPoll timing now raw c = (⟨.held, c.tracked, now⟩, some c.tracked) :=
  let ⟨hs, ⟨hr, hc⟩, hel⟩ := h
  dbPoll_down_of_elapsed hs hr hc hel

theorem dbPoll_of_repeatsAgain (h : RepeatsAgain timing now raw c) :
    dbPoll timing now raw c = (⟨.held, c.tracked, now⟩, some c.tracked) :=
  let ⟨hs, ⟨hr, hc⟩, hel⟩ := h
  dbPoll_held_of_elapsed hs hr hc hel

theorem dbPoll_of_releases (h : Releases raw c) :
    dbPoll timing now raw c = (⟨.released, c.tracked, now⟩, some c.tracked) :=
  dbPoll_held_of_lost h.1 (not_matching_iff.1 h.2)

/-- In each of the four cases the tracked code is emitted. -/
theorem dbPoll_emits_of_case (h : EmissionCase timing now raw c) :
    (dbPoll timing now raw c).2 = some c.tracked := by
  obtain h | h | h | h := h
  · rw [dbPoll_of_confirms h]
  · rw [dbPoll_of_repeatsFirst h]
  · rw [dbPoll_of_repeatsAgain h]
  · rw [dbPoll_of_releases h]

/-- An emission is one of the four cases: every other row of a poll cycle emits nothing. -/
theorem emissionCase_of_emits (h : (dbPoll timing now raw c).2 ≠ none) : EmissionCase timing now raw c := by
  cases hs : c.state
  case up =>
    by_cases hr : raw = noneRaw
    · exact absurd (by rw [dbPoll_up_of_none hs hr]) h
    · exact absurd (by rw [dbPoll_up_of_code hs hr]) h
  case debounce =>
    by_cases hr : raw = noneRaw
    · exact absurd (by rw [dbPoll_debounce_of_none hs hr]) h
    by_cases hc : raw = c.tracked
    · obtain hel | hel := le_or_gt timing.debounceTime.toNat (now - c.t0).toNat
      · exact .inl ⟨hs, ⟨hr, hc⟩, hel⟩
      · exact absurd (by rw [dbPoll_debounce_of_early hs hr hc hel]) h
    · exact absurd (by rw [dbPoll_debounce_of_other hs hr hc]) h
  case pressed => exact absurd (by rw [dbPoll_pressed hs]) h
  case down =>
    by_cases hm : Matching raw c
    · obtain hel | hel := le_or_gt timing.holdTime.toNat (now - c.t0).toNat
      · exact .inr (.inl ⟨hs, hm, hel⟩)
      · exact absurd (by rw [dbPoll_down_of_early hs hm.1 hm.2 hel]) h
    · exact absurd (by rw [dbPoll_down_of_lost hs (not_matching_iff.1 hm)]) h
  case released =>
    by_cases hr : raw = noneRaw
    · exact absurd (by rw [dbPoll_released_of_none hs hr]) h
    · exact absurd (by rw [dbPoll_released_of_code hs hr]) h
  case held =>
    by_cases hm : Matching raw c
    · obtain hel | hel := le_or_gt timing.repeatTime.toNat (now - c.t0).toNat
      · exact .inr (.inr (.inl ⟨hs, hm, hel⟩))
      · exact absurd (by rw [dbPoll_held_of_early hs hm.1 hm.2 hel]) h
    · exact .inr (.inr (.inr ⟨hs, hm⟩))

/-- A poll cycle emits the tracked code in the four cases and nothing in every other. -/
theorem dbPoll_emission (timing : Timing) (now : Time) (raw : Code) (c : DbCtx) :
    (EmissionCase timing now raw c ∧ (dbPoll timing now raw c).2 = some c.tracked)
      ∨ (¬ EmissionCase timing now raw c ∧ (dbPoll timing now raw c).2 = none) := by
  by_cases h : EmissionCase timing now raw c
  · exact .inl ⟨h, dbPoll_emits_of_case h⟩
  · exact .inr ⟨h, not_not.1 (mt emissionCase_of_emits h)⟩

end Emissions

theorem emits_ev (c : Code) : (emits c).getLsbD 31 = true := by
  rw [← respEmission_some, respEmission_some_ev]

theorem quiet_ev : quiet.getLsbD 31 = false := rfl

/-- Settles O25: the poll cycle emits the tracked code in the four cases and in no other, and each case's row gives the
state after. -/
theorem theFourEmissions : Obligations.TheFourEmissions := by
  unfold Obligations.TheFourEmissions
  intro s t ch raw c h hexec
  rw [exec_dbStep h] at hexec
  cases hexec
  refine ⟨_, _, rfl, List.getElem?_set_self (dbReady_lt h), ?_⟩
  have hstates : (Confirms s.timing s.now raw c → (dbPoll s.timing s.now raw c).1.state = .down)
      ∧ (RepeatsFirst s.timing s.now raw c → (dbPoll s.timing s.now raw c).1.state = .held)
      ∧ (RepeatsAgain s.timing s.now raw c → (dbPoll s.timing s.now raw c).1.state = .held)
      ∧ (Releases raw c → (dbPoll s.timing s.now raw c).1.state = .released) :=
    ⟨fun hcase => by rw [dbPoll_of_confirms hcase], fun hcase => by rw [dbPoll_of_repeatsFirst hcase],
      fun hcase => by rw [dbPoll_of_repeatsAgain hcase], fun hcase => by rw [dbPoll_of_releases hcase]⟩
  obtain ⟨hcase, he⟩ | ⟨hcase, he⟩ := dbPoll_emission s.timing s.now raw c
  · rw [he, respEmission_some, emits_ev]
    exact ⟨iff_of_true rfl hcase, fun _ => rfl, nofun, hstates⟩
  · rw [he, respEmission_none, quiet_ev]
    exact ⟨iff_of_false nofun hcase, nofun, fun _ => rfl, hstates⟩

/-! ## After a release (R137) -/

/-- Settles O30: the release leaves Released, whose two rows emit nothing. -/
theorem heldReleaseHappensOnce : Obligations.HeldReleaseHappensOnce := by
  unfold Obligations.HeldReleaseHappensOnce
  intro s ch raw c h hs hne
  refine ⟨_, exec_dbStep_of_emission h (dbPoll_held_of_lost hs (.inr hne)), rfl,
    List.getElem?_set_self (dbReady_lt h), fun raw' later hraw => ?_⟩
  have hnext := dbReady_again ⟨.released, c.tracked, s.now⟩ later (emits c.tracked) h hraw
  refine exec_dbStep_of_quiet hnext ?_
  split
  · exact dbPoll_released_of_none rfl ‹_›
  · exact dbPoll_released_of_code rfl ‹_›

/-! ## Sequences of polls -/

theorem pollAll_cons {ch : Chan} {raw : Code} {now : Time} {rest : List (Code × Time)} {s u v : State}
    {rs : List (Option Response)} (h : exec (.dbStep ch raw) { s with now := now } = .next u)
    (hrest : pollAll ch rest u = .next (v, rs)) : pollAll ch ((raw, now) :: rest) s = .next (v, u.response :: rs) := by
  simp only [pollAll, h, hrest]

/-- Two sequences, one after the other. -/
theorem pollAll_append {ch : Chan} {l₁ l₂ : List (Code × Time)} {s u v : State} {rs₁ rs₂ : List (Option Response)}
    (h₁ : pollAll ch l₁ s = .next (u, rs₁)) (h₂ : pollAll ch l₂ u = .next (v, rs₂)) :
    pollAll ch (l₁ ++ l₂) s = .next (v, rs₁ ++ rs₂) := by
  induction l₁ generalizing s rs₁ with
  | nil =>
    cases h₁
    exact h₂
  | cons x l₁ ih =>
    obtain ⟨raw, now⟩ := x
    rw [pollAll] at h₁
    split at h₁
    · split at h₁
      · cases h₁
        exact pollAll_cons ‹_› (ih ‹_›)
      · cases h₁
      · cases h₁
    · cases h₁
    · cases h₁

/-- A sequence of one poll. -/
theorem pollAll_single {ch : Chan} {raw : Code} {now : Time} {s u : State}
    (h : exec (.dbStep ch raw) { s with now := now } = .next u) :
    pollAll ch [(raw, now)] s = .next (u, [u.response]) :=
  pollAll_cons h rfl

theorem dbReady_raw {s : State} {ch : Chan} {raw : Code} {c : DbCtx} (h : dbReady s ch raw c) :
    raw = noneRaw ∨ raw.toNat < s.params.nCodes := h.2.1

/-- The clock is no part of what makes a channel ready. -/
theorem dbReady_at {s : State} {ch : Chan} {raw : Code} {c : DbCtx} (now : Time) (h : dbReady s ch raw c) :
    dbReady { s with now := now } ch raw c := h

/-- A code tracked since t1 and polled at times less than DEBOUNCE_TIME after t1 is not emitted, and its context
stays. -/
theorem pollAll_early {s : State} {ch : Chan} {c : Code} {t1 : Time} (times : List Time)
    (h : dbReady s ch c ⟨.debounce, c, t1⟩) (hc : c ≠ noneRaw)
    (hearly : ∀ t ∈ times, (t - t1).toNat < s.timing.debounceTime.toNat) :
    ∃ u, pollAll ch (times.map (fun t => (c, t))) s = .next (u, List.replicate times.length (some ⟨quiet, 0⟩))
      ∧ dbReady u ch c ⟨.debounce, c, t1⟩ ∧ u.params = s.params := by
  induction times generalizing s with
  | nil => exact ⟨s, rfl, h, rfl⟩
  | cons t times ih =>
    obtain ⟨ht, hrest⟩ := List.forall_mem_cons.1 hearly
    have hexec := exec_dbStep_of_quiet (dbReady_at t h) (dbPoll_debounce_of_early rfl hc rfl ht)
    obtain ⟨u, hu, hready, hp⟩ := ih (dbReady_again ⟨.debounce, c, t1⟩ t quiet h (dbReady_raw h)) hrest
    exact ⟨u, pollAll_cons hexec hu, hready, hp⟩

/-- Settles O31: the early polls keep the context and answer no emission, and so does the first poll without the
code, which leaves by one of the two quiet rows of Debounce. -/
theorem shortPressesAreNeverEmitted : Obligations.ShortPressesAreNeverEmitted := by
  unfold Obligations.ShortPressesAreNeverEmitted
  intro s ch c t1 times raw later h hc hearly hne hraw
  obtain ⟨u, hu, hready, hp⟩ := pollAll_early times h hc hearly
  have hlast : dbReady { u with now := later } ch raw ⟨.debounce, c, t1⟩ := ⟨hready.1, hp ▸ hraw, hready.2.2⟩
  have hpoll : dbPoll u.timing later raw ⟨.debounce, c, t1⟩
      = (if raw = noneRaw then ⟨.up, noneRaw, later⟩ else ⟨.debounce, raw, later⟩, none) := by
    split
    · exact dbPoll_debounce_of_none rfl ‹_›
    · exact dbPoll_debounce_of_other rfl ‹_› hne
  refine ⟨_, _, pollAll_append hu (pollAll_single (exec_dbStep_of_quiet hlast hpoll)), ?_, ?_,
    List.getElem?_set_self (dbReady_lt hlast)⟩
  · simp
  · intro r hr
    rw [List.mem_append, List.mem_singleton] at hr
    exact hr.elim List.eq_of_mem_replicate id

/-! ## The repeat cadence (R136) -/

/-- DEBOUNCE_TIME as a number of milliseconds between two polls, where 0 acts as 1. -/
def Timing.debounceMs (timing : Timing) : Nat := max 1 timing.debounceTime.toNat

/-- HOLD_TIME likewise. -/
def Timing.holdMs (timing : Timing) : Nat := max 1 timing.holdTime.toNat

/-- REPEAT_TIME likewise. -/
def Timing.repeatMs (timing : Timing) : Nat := max 1 timing.repeatTime.toNat

/-- The k-th emission of Held, the first of which enters it. -/
def Timing.heldAt (timing : Timing) (k : Nat) : Nat := timing.debounceMs + timing.holdMs + k * timing.repeatMs

/-- The milliseconds at which a held code is emitted. -/
def EmitsAt (timing : Timing) (t : Nat) : Prop :=
  t = timing.debounceMs ∨ t = timing.debounceMs + timing.holdMs ∨ ∃ k, 1 ≤ k ∧ t = timing.heldAt k

/-- The context after the poll at millisecond t: Debounce since 0, Down since the confirm, or Held since its last
emission. -/
inductive CadencePhase (timing : Timing) (c : Code) (t : Nat) : DbCtx → Prop where
  | debounce (hhi : t < timing.debounceMs) : CadencePhase timing c t ⟨.debounce, c, BitVec.ofNat 32 0⟩
  | down (hlo : timing.debounceMs ≤ t) (hhi : t < timing.debounceMs + timing.holdMs) :
      CadencePhase timing c t ⟨.down, c, BitVec.ofNat 32 timing.debounceMs⟩
  | held (k : Nat) (hlo : timing.heldAt k ≤ t) (hhi : t < timing.heldAt (k + 1)) :
      CadencePhase timing c t ⟨.held, c, BitVec.ofNat 32 (timing.heldAt k)⟩

/-- The elapsed time of R121 between two milliseconds less than 2^32 apart, however far the clock has wrapped. -/
theorem elapsed_ofNat {t t0 : Nat} (h0 : t0 ≤ t) (h : t - t0 < 2 ^ 32) :
    (BitVec.ofNat 32 t - BitVec.ofNat 32 t0).toNat = t - t0 := by
  simp only [BitVec.toNat_sub, BitVec.toNat_ofNat]
  omega

section Cadence
variable {timing : Timing} {c : Code} {t : Nat}

theorem heldAt_zero : timing.heldAt 0 = timing.debounceMs + timing.holdMs := by
  rw [Timing.heldAt, Nat.zero_mul, Nat.add_zero]

theorem heldAt_succ (k : Nat) : timing.heldAt (k + 1) = timing.heldAt k + timing.repeatMs := by
  simp only [Timing.heldAt, Nat.succ_mul, Nat.add_assoc]

theorem heldAt_lt {k j : Nat} (h : timing.heldAt k < timing.heldAt j) : k < j :=
  Nat.lt_of_mul_lt_mul_right (Nat.lt_of_add_lt_add_left h)

theorem heldAt_lt_succ (k : Nat) : timing.heldAt k < timing.heldAt (k + 1) := by
  rw [heldAt_succ]
  exact Nat.lt_add_of_pos_right (Nat.le_max_left 1 _)

/-- Emission times at or after the first emission of Held are the emissions of Held. -/
theorem emitsAt_iff_of_held (h : timing.debounceMs + timing.holdMs ≤ t) :
    EmitsAt timing t ↔ ∃ k, t = timing.heldAt k := by
  have hhold : 1 ≤ timing.holdMs := Nat.le_max_left 1 _
  have hzero := heldAt_zero (timing := timing)
  constructor
  · rintro (rfl | rfl | ⟨k, -, rfl⟩)
    · omega
    · exact ⟨0, hzero.symm⟩
    · exact ⟨k, rfl⟩
  · rintro ⟨k, rfl⟩
    cases k with
    | zero => exact .inr (.inl hzero)
    | succ k => exact .inr (.inr ⟨k + 1, Nat.le_add_left 1 k, rfl⟩)

/-- Between the confirm and Held nothing is emitted, nor before the confirm. -/
theorem not_emitsAt_of_lt (hne : t ≠ timing.debounceMs) (hhi : t < timing.debounceMs + timing.holdMs) :
    ¬ EmitsAt timing t := by
  rintro (h | h | ⟨k, -, h⟩)
  · exact hne h
  · omega
  · rw [Timing.heldAt] at h
    omega

/-- Between two emissions of Held nothing is emitted. -/
theorem not_emitsAt_of_held {k : Nat} (hlo : timing.heldAt k < t) (hhi : t < timing.heldAt (k + 1)) :
    ¬ EmitsAt timing t := by
  have hheld : timing.debounceMs + timing.holdMs ≤ t := by
    rw [Timing.heldAt] at hlo
    omega
  rw [emitsAt_iff_of_held hheld]
  rintro ⟨j, rfl⟩
  have := heldAt_lt hlo
  have := heldAt_lt hhi
  omega

/-- One poll later: the next phase, with an emission exactly at an emission time. -/
theorem cadencePhase_next {x : DbCtx} (hc : c ≠ noneRaw) (h : CadencePhase timing c t x) :
    ∃ x' e, dbPoll timing (BitVec.ofNat 32 (t + 1)) c x = (x', e) ∧ CadencePhase timing c (t + 1) x'
      ∧ ((EmitsAt timing (t + 1) ∧ e = some c) ∨ (¬ EmitsAt timing (t + 1) ∧ e = none)) := by
  have hD : timing.debounceMs = max 1 timing.debounceTime.toNat := rfl
  have hH : timing.holdMs = max 1 timing.holdTime.toNat := rfl
  have hR : timing.repeatMs = max 1 timing.repeatTime.toNat := rfl
  have := timing.debounceTime.isLt
  have := timing.holdTime.isLt
  have := timing.repeatTime.isLt
  cases h with
  | debounce hhi =>
    have hel := elapsed_ofNat (t := t + 1) (t0 := 0) (by omega) (by omega)
    by_cases heq : t + 1 = timing.debounceMs
    · have hdue : timing.debounceTime.toNat ≤ t + 1 - 0 := by omega
      refine ⟨_, _, dbPoll_debounce_of_elapsed rfl hc rfl (hel ▸ hdue), ?_, .inl ⟨.inl heq, rfl⟩⟩
      rw [heq]
      exact .down (by omega) (by omega)
    · have hearly : t + 1 - 0 < timing.debounceTime.toNat := by omega
      exact ⟨_, _, dbPoll_debounce_of_early rfl hc rfl (hel ▸ hearly), .debounce (by omega),
        .inr ⟨not_emitsAt_of_lt heq (by omega), rfl⟩⟩
  | down hlo hhi =>
    have hel := elapsed_ofNat (t := t + 1) (t0 := timing.debounceMs) (by omega) (by omega)
    by_cases heq : t + 1 = timing.debounceMs + timing.holdMs
    · have hdue : timing.holdTime.toNat ≤ t + 1 - timing.debounceMs := by omega
      refine ⟨_, _, dbPoll_down_of_elapsed rfl hc rfl (hel ▸ hdue), ?_, .inl ⟨.inr (.inl heq), rfl⟩⟩
      rw [heq, ← heldAt_zero]
      exact .held 0 (Nat.le_refl _) (heldAt_lt_succ 0)
    · have hearly : t + 1 - timing.debounceMs < timing.holdTime.toNat := by omega
      exact ⟨_, _, dbPoll_down_of_early rfl hc rfl (hel ▸ hearly), .down (by omega) (by omega),
        .inr ⟨not_emitsAt_of_lt (by omega) (by omega), rfl⟩⟩
  | held k hlo hhi =>
    have hnext := heldAt_succ (timing := timing) k
    have hel := elapsed_ofNat (t := t + 1) (t0 := timing.heldAt k) (by omega) (by omega)
    by_cases heq : t + 1 = timing.heldAt (k + 1)
    · have hdue : timing.repeatTime.toNat ≤ t + 1 - timing.heldAt k := by omega
      refine ⟨_, _, dbPoll_held_of_elapsed rfl hc rfl (hel ▸ hdue), ?_,
        .inl ⟨.inr (.inr ⟨k + 1, by omega, heq⟩), rfl⟩⟩
      rw [heq]
      exact .held (k + 1) (Nat.le_refl _) (heldAt_lt_succ (k + 1))
    · have hearly : t + 1 - timing.heldAt k < timing.repeatTime.toNat := by omega
      exact ⟨_, _, dbPoll_held_of_early rfl hc rfl (hel ▸ hearly), .held k (by omega) (by omega),
        .inr ⟨not_emitsAt_of_held (k := k) (by omega) (by omega), rfl⟩⟩

end Cadence

/-- What R136 says of the response at millisecond t. -/
def AnswersCadence (timing : Timing) (c : Code) (t : Nat) (r : Option (Option Response)) : Prop :=
  (EmitsAt timing t → r = some (some ⟨emits c, 0⟩)) ∧ (¬ EmitsAt timing t → r = some (some ⟨quiet, 0⟩))

theorem answersCadence_respEmission {timing : Timing} {c : Code} {t : Nat} {e : Option Code}
    (h : (EmitsAt timing t ∧ e = some c) ∨ (¬ EmitsAt timing t ∧ e = none)) :
    AnswersCadence timing c t (some (some ⟨respEmission e, 0⟩)) := by
  obtain ⟨hat, rfl⟩ | ⟨hnot, rfl⟩ := h
  · exact ⟨fun _ => by rw [respEmission_some], fun hn => absurd hat hn⟩
  · exact ⟨fun ht => absurd ht hnot, fun _ => by rw [respEmission_none]⟩

/-- The polls of milliseconds 0 to T from Up: the phase they reach, and each one's response. -/
theorem pollAll_cadence {s : State} {ch : Chan} {c : Code} {x : DbCtx} (h : dbReady s ch c x) (hx : x.state = .up)
    (hc : c ≠ noneRaw) (T : Nat) :
    ∃ u rs y, pollAll ch ((List.range (T + 1)).map (fun t => (c, BitVec.ofNat 32 t))) s = .next (u, rs)
      ∧ rs.length = T + 1 ∧ (∀ t, t ≤ T → AnswersCadence s.timing c t rs[t]?)
      ∧ dbReady u ch c y ∧ CadencePhase s.timing c T y ∧ u.timing = s.timing := by
  induction T with
  | zero =>
    have hD : 1 ≤ s.timing.debounceMs := Nat.le_max_left 1 _
    have hexec := exec_dbStep_of_quiet (dbReady_at 0 h) (dbPoll_up_of_code hx hc)
    refine ⟨_, _, _, pollAll_single hexec, rfl, fun t ht => ?_, dbReady_again _ 0 quiet h (dbReady_raw h),
      .debounce hD, rfl⟩
    obtain rfl : t = 0 := by omega
    exact answersCadence_respEmission (.inr ⟨not_emitsAt_of_lt (by omega) (by omega), rfl⟩)
  | succ T ih =>
    obtain ⟨u, rs, y, hu, hlen, hrs, hready, hphase, htiming⟩ := ih
    obtain ⟨y', e, hpoll, hphase', hemit⟩ := cadencePhase_next hc hphase
    rw [← htiming] at hpoll
    have hexec := exec_dbStep (dbReady_at (BitVec.ofNat 32 (T + 1)) hready)
    rw [show dbPoll _ _ _ _ = _ from hpoll] at hexec
    refine ⟨_, _, y', (congrArg (pollAll ch · s) ?_).trans (pollAll_append hu (pollAll_single hexec)), ?_,
      fun t ht => ?_, dbReady_again y' (BitVec.ofNat 32 (T + 1)) (respEmission e) hready (dbReady_raw hready), hphase',
      htiming⟩
    · rw [List.range_succ, List.map_append]
      rfl
    · simp [hlen]
    · obtain hlt | rfl : t < T + 1 ∨ t = T + 1 := by omega
      · rw [List.getElem?_append_left (by omega)]
        exact hrs t (by omega)
      · rw [List.getElem?_append_right (by omega), hlen, Nat.sub_self]
        exact answersCadence_respEmission hemit

/-- Settles O32: the phases of the context, poll by poll. -/
theorem repeatCadence : Obligations.RepeatCadence := by
  unfold Obligations.RepeatCadence
  intro s ch c x T h hx hc
  obtain ⟨u, rs, -, hu, hlen, hrs, -⟩ := pollAll_cadence h hx hc T
  exact ⟨u, rs, hu, hlen, hrs⟩

end Sys2Proof.Machine
end

section
/-! SUPPORT. QD_STEP and QD_ANGLE as wholes (41_quadrature.md R150 to R161, 60_exceptions.md R234): their results in
each mode, their errors, what they read and write, and the laws of the decode step over single and repeated readings. -/

namespace Sys2Proof.Machine

/-! ## The results of the two commands -/

section Results
variable {s : State} {ch : Chan} {inp : BitVec 16}

theorem exec_qdStep_of_quadStep {x : QdChan × Rot} (h : quadStep ch inp s = .ok x) :
    exec (.qdStep ch inp) s = .next (s.qdAfter ch x.1 (respRot x.2)) :=
  exec_of_ok (i := .qdStep ch inp) (qdStepBody_ok_iff.2 ⟨x, h, rfl, rfl⟩)

theorem exec_qdAngle_of_quadStep {x : QdChan × Rot} (h : quadStep ch inp s = .ok x) (hd : x.1.detents ≠ 0) :
    exec (.qdAngle ch inp) s = .next (s.qdAfter ch x.1 (respAngle (angleOf x.1.pos x.1.detents) x.2)) :=
  exec_of_ok (i := .qdAngle ch inp) (qdAngleBody_ok_iff.2 ⟨x, h, hd, rfl, rfl⟩)

theorem qdReady_seq {q : QdChan} (h : qdReady s ch q) : 1 ≤ q.seq.toNat ∧ q.seq.toNat ≤ 7 := h.2.2

/-- The angle of R156 is the remainder of the signed counter. -/
theorem angleOf_toNat {pos : Word} {d : BitVec 16} (hd : d ≠ 0) :
    ((angleOf pos d).toNat : Int) = pos.toInt % (d.toNat : Int) := by
  have hpos : d.toNat ≠ 0 := fun h => hd (BitVec.eq_of_toNat_eq h)
  have hlt := d.isLt
  have h0 := Int.emod_nonneg pos.toInt (b := (d.toNat : Int)) (by omega)
  have h1 := Int.emod_lt_of_pos pos.toInt (b := (d.toNat : Int)) (by omega)
  rw [angleOf, BitVec.toNat_ofInt]
  omega

theorem angleOf_lt {pos : Word} {d : BitVec 16} (hd : d ≠ 0) : (angleOf pos d).toNat < d.toNat := by
  have hpos : d.toNat ≠ 0 := fun h => hd (BitVec.eq_of_toNat_eq h)
  have h1 := Int.emod_lt_of_pos pos.toInt (b := (d.toNat : Int)) (by omega)
  rw [← angleOf_toNat hd] at h1
  omega

theorem detents_dvd_sub_angleOf {pos : Word} {d : BitVec 16} (hd : d ≠ 0) :
    (d.toNat : Int) ∣ pos.toInt - ((angleOf pos d).toNat : Int) := by
  rw [angleOf_toNat hd]
  exact Int.dvd_self_sub_emod

variable {q : QdChan} {r : BitVec 2} (hseq : 1 ≤ q.seq.toNat ∧ q.seq.toNat ≤ 7)
include hseq

/-- A decode step of QD_STEP is the cell of R161. -/
theorem exec_qdStep_of_decodeRot (h : quadStep ch inp s = .ok (decodeRot q r)) :
    exec (.qdStep ch inp) s = .next (s.qdAfter ch (q.afterReading r) (BitVec.ofNat 32 (q.rotOf r))) := by
  obtain ⟨hcell, hrot⟩ := decodeRot_eq q r hseq.1 hseq.2
  rw [exec_qdStep_of_quadStep h, hcell, respRot_eq hrot]

/-- A decode step of QD_ANGLE is the same cell, with the angle of the counter after it. -/
theorem exec_qdAngle_of_decodeRot (h : quadStep ch inp s = .ok (decodeRot q r)) (hd : q.detents ≠ 0) :
    ∃ a : Nat, a < q.detents.toNat ∧ (q.detents.toNat : Int) ∣ (q.afterReading r).pos.toInt - a
      ∧ exec (.qdAngle ch inp) s = .next (s.qdAfter ch (q.afterReading r)
          (BitVec.ofNat 32 (a * 65536 + q.rotOf r))) := by
  obtain ⟨hcell, hrot⟩ := decodeRot_eq q r hseq.1 hseq.2
  rw [hcell] at h
  refine ⟨_, angleOf_lt hd, detents_dvd_sub_angleOf hd, ?_⟩
  rw [← respAngle_eq _ hrot]
  exact exec_qdAngle_of_quadStep h hd

end Results

/-- Settles O33: the reading is the operand's, and the decode step is its cell. -/
theorem qdStepDigital : Obligations.QdStepDigital := by
  unfold Obligations.QdStepDigital
  intro s ch inp q r h hd
  exact exec_qdStep_of_decodeRot (qdReady_seq h) (quadStep_digital h hd)

/-- Settles O34: the reading and the new `prev` are the first match, or the reading is `prev`. -/
theorem qdStepAnalog : Obligations.QdStepAnalog := by
  unfold Obligations.QdStepAnalog
  intro s ch inp q k h ha
  have hseq := qdReady_seq h
  exact ⟨fun i hi => exec_qdStep_of_decodeRot (q := { q with prev := BitVec.ofNat 2 i.val }) hseq
      (quadStep_match h ha hi),
    fun hn => exec_qdStep_of_decodeRot hseq (quadStep_noMatch h ha hn)⟩

/-- Settles O35, with the remainder of the new counter as the angle. -/
theorem qdAngleDigital : Obligations.QdAngleDigital := by
  unfold Obligations.QdAngleDigital
  intro s ch inp q r h hd hdet
  exact exec_qdAngle_of_decodeRot (qdReady_seq h) (quadStep_digital h hd) hdet

/-- Settles O36, with a match and without. -/
theorem qdAngleAnalog : Obligations.QdAngleAnalog := by
  unfold Obligations.QdAngleAnalog
  intro s ch inp q k h ha hdet
  have hseq := qdReady_seq h
  exact ⟨fun i hi => exec_qdAngle_of_decodeRot (q := { q with prev := BitVec.ofNat 2 i.val }) hseq
      (quadStep_match h ha hi) hdet,
    fun hn => exec_qdAngle_of_decodeRot hseq (quadStep_noMatch h ha hn) hdet⟩

/-! ## Errors -/

/-- An error of the shared step is the error of both commands. -/
theorem exec_quad_of_error {i : Instr} {s : State} {ch : Chan} {inp : BitVec 16} {e : ErrCode}
    (hi : i = .qdStep ch inp ∨ i = .qdAngle ch inp) (h : quadStep ch inp s = .error (.error e)) :
    exec i s = .next (s.afterError e.num) := by
  obtain rfl | rfl := hi
  · exact exec_of_error (bind_of_error h)
  · exact exec_of_error (bind_of_error h)

theorem quadStep_of_missing {s : State} {ch : Chan} {inp : BitVec 16} (h : s.params.nQd ≤ ch.toNat) :
    quadStep ch inp s = .error (.error .badChannel) :=
  bind_of_error (checkChannel_error_iff.2 ⟨h, rfl⟩)

/-- An error of sensing is one of the shared step. -/
theorem quadStep_of_sense_error {s : State} {ch : Chan} {inp : BitVec 16} {q : QdChan} {x : Stop}
    (hch : ch.toNat < s.params.nQd) (hq : s.qd[ch.toNat]? = some q) (h : sense s q inp = .error x) :
    quadStep ch inp s = .error x :=
  bind_of_ok_error (a := ()) (checkChannel_ok_iff.2 hch) (bind_of_ok_error (getQd_ok_iff.2 hq) (bind_of_error h))

theorem sense_of_digital_range {s : State} {q : QdChan} {inp : BitVec 16} (hm : q.ctrl.mode = .digital)
    (h : 4 ≤ inp.toNat) : sense s q inp = .error (.error .badOperand) := by
  simp only [sense, hm]
  exact bind_of_error (checkDigital_error_iff.2 ⟨h, rfl⟩)

theorem sense_of_analog_range {s : State} {q : QdChan} {inp : BitVec 16} (hm : q.ctrl.mode = .analog)
    (h : 2 ^ s.params.sampleW ≤ inp.toNat) : sense s q inp = .error (.error .badOperand) := by
  simp only [sense, hm]
  exact bind_of_error (checkSample_error_iff.2 ⟨h, rfl⟩)

theorem sense_of_bad_count {s : State} {q : QdChan} {inp : BitVec 16} {k : Bank} (hm : q.ctrl.mode = .analog)
    (h : inp.toNat < 2 ^ s.params.sampleW) (hk : s.bank[q.ctrl.bank.toNat]? = some k) (hcount : k.count.val ≠ 4) :
    sense s q inp = .error (.error .badConfig) := by
  simp only [sense, hm]
  exact bind_of_ok_error (a := ()) (checkSample_ok_iff.2 h) (bind_of_ok_error (getBank_ok_iff.2 hk)
    (bind_of_error (require_error_iff.2 ⟨decide_eq_false hcount, rfl⟩)))

/-- Settles O37: the channel, then the operand by the mode, then the bank's count. -/
theorem quadratureErrors : Obligations.QuadratureErrors := by
  unfold Obligations.QuadratureErrors
  intro s ch inp i hi
  refine ⟨fun hch => exec_quad_of_error hi (quadStep_of_missing hch), fun q hch hq => ⟨fun hm hr => ?_, fun hm hr => ?_,
    fun k hm hr hk hcount => ?_⟩⟩
  · exact exec_quad_of_error hi (quadStep_of_sense_error hch hq (sense_of_digital_range hm hr))
  · exact exec_quad_of_error hi (quadStep_of_sense_error hch hq (sense_of_analog_range hm hr))
  · exact exec_quad_of_error hi (quadStep_of_sense_error hch hq (sense_of_bad_count hm hr hk hcount))

/-! ## What QD_STEP and QD_ANGLE read and write -/

/-- The two commands that end in a next state write one channel, the shared step's result, with an answer that depends
on that result alone, or raise the shared step's error. -/
theorem exec_quad_cases {i : Instr} {s t : State} {ch : Chan} {inp : BitVec 16}
    (hi : i = .qdStep ch inp ∨ i = .qdAngle ch inp) (h : exec i s = .next t) :
    (∃ x v, quadStep ch inp s = .ok x ∧ t = s.qdAfter ch x.1 v
        ∧ ∀ u, quadStep ch inp u = .ok x → exec i u = .next (u.qdAfter ch x.1 v))
      ∨ (∃ e, quadStep ch inp s = .error (.error e) ∧ t = raise e s) := by
  obtain ⟨u, v, hbody, rfl⟩ | ⟨e, hbody, rfl⟩ := exec_next_iff.1 h
  · obtain rfl | rfl := hi
    · obtain ⟨x, hx, rfl, rfl⟩ := qdStepBody_ok_iff.1 hbody
      exact .inl ⟨x, _, hx, rfl, fun _ => exec_qdStep_of_quadStep⟩
    · obtain ⟨x, hx, hd, rfl, rfl⟩ := qdAngleBody_ok_iff.1 hbody
      exact .inl ⟨x, _, hx, rfl, fun _ hu => exec_qdAngle_of_quadStep hu hd⟩
  · refine .inr ⟨e, ?_, rfl⟩
    obtain rfl | rfl := hi
    · simpa only [body, qdStepBody, bind_error_iff, pure_error_iff, and_false, exists_false, or_false] using hbody
    · obtain hquad | ⟨hx, -⟩ := qdAngleBody_error hbody
      · exact hquad
      · cases hx

/-- Settles O41: the shared step moves seq, pos and, in analog mode, prev of one channel. -/
theorem quadratureWritesItsChannelOnly : Obligations.QuadratureWritesItsChannelOnly := by
  unfold Obligations.QuadratureWritesItsChannelOnly
  intro s t ch inp i hi h
  obtain ⟨x, v, hx, rfl, -⟩ | ⟨e, -, rfl⟩ := exec_quad_cases hi h
  · refine ⟨rfl, List.length_set, fun k hk => List.getElem?_set_ne (Ne.symm hk), fun q q' hq hq' => ?_, fun _ => rfl,
      fun hnot => absurd ⟨_, rfl⟩ hnot⟩
    obtain ⟨q₀, y, p, hq₀, -, -, rfl, hp⟩ := quadStep_ok hx
    obtain rfl : q₀ = q := by rw [hq₀] at hq; exact Option.some.inj hq
    rw [State.qdAfter, List.getElem?_set_self (List.getElem?_eq_some_iff.1 hq).1] at hq'
    cases hq'
    obtain ⟨hprev, hctrl, hdetents⟩ := decodeRot_fields { q₀ with prev := p } y
    exact ⟨hctrl, hdetents, fun hm => hprev.trans (hp hm)⟩
  · refine ⟨rfl, rfl, fun _ _ => rfl, fun q q' hq hq' => ?_, fun hc => absurd hc (raise_not_completed e s),
      fun _ => rfl⟩
    obtain rfl : q = q' := Option.some.inj (hq.symm.trans hq')
    exact ⟨rfl, rfl, fun _ => rfl⟩

/-- Sensing reads the parameters and, in analog mode, the channel's bank. -/
theorem sense_congr {s u : State} {q : QdChan} (inp : BitVec 16) (hp : u.params = s.params)
    (hbank : q.ctrl.mode = .analog → u.bank[q.ctrl.bank.toNat]? = s.bank[q.ctrl.bank.toNat]?) :
    sense u q inp = sense s q inp := by
  unfold sense
  cases hm : q.ctrl.mode with
  | digital => rfl
  | analog =>
    have hget : u.getBank q.ctrl.bank = s.getBank q.ctrl.bank := by simp only [State.getBank, hbank hm]
    simp only [senseAnalog, hp, hget]

theorem quadStep_congr {s u : State} {ch : Chan} (inp : BitVec 16) (hp : u.params = s.params)
    (hqd : u.qd[ch.toNat]? = s.qd[ch.toNat]?)
    (hbank : ∀ q, s.qd[ch.toNat]? = some q → q.ctrl.mode = .analog →
      u.bank[q.ctrl.bank.toNat]? = s.bank[q.ctrl.bank.toNat]?) : quadStep ch inp u = quadStep ch inp s := by
  unfold quadStep State.getQd
  rw [hp, hqd]
  cases hq : s.qd[ch.toNat]? with
  | none => rfl
  | some q =>
    simp only [bind, Except.bind]
    rw [sense_congr inp hp (hbank q hq)]

/-- Settles O42: the shared step computes the same from both states. -/
theorem quadratureReadsItsChannelOnly : Obligations.QuadratureReadsItsChannelOnly := by
  unfold Obligations.QuadratureReadsItsChannelOnly
  intro s u t ch inp i hi hp hqd hbank h
  have hquad := quadStep_congr inp hp hqd hbank
  obtain ⟨x, v, hx, rfl, hall⟩ | ⟨e, he, rfl⟩ := exec_quad_cases hi h
  · refine ⟨_, hall u (hquad.trans hx), rfl, ?_⟩
    simp only [State.qdAfter, List.getElem?_set_self', hqd]
  · exact ⟨_, exec_quad_of_error hi (hquad.trans he), by rw [raise_eq_afterError]; rfl, hqd⟩

/-- Settles O44: the ANGLE field is the angle of the channel's new counter, and the detent count stays. -/
theorem angleIsBounded : Obligations.AngleIsBounded := by
  unfold Obligations.AngleIsBounded
  intro s t ch inp q v hq h hresp
  obtain ⟨u, w, hbody, rfl⟩ | ⟨e, -, rfl⟩ := exec_next_iff.1 h
  · obtain ⟨x, hx, hd, -, rfl⟩ := qdAngleBody_ok_iff.1 hbody
    cases hresp
    obtain ⟨q₀, y, p, hq₀, -, -, rfl, -⟩ := quadStep_ok hx
    obtain rfl : q₀ = q := Option.some.inj (hq₀.symm.trans hq)
    obtain ⟨-, -, hdetents⟩ := decodeRot_fields { q₀ with prev := p } y
    rw [respAngle_angle]
    exact (angleOf_lt hd).trans_eq (congrArg BitVec.toNat hdetents)
  · exact absurd ⟨v, hresp⟩ (raise_not_completed e s)

/-! ## The laws of the decode step -/

/-- A decode step keeps the counter and moves the index by one at most, or moves the counter by one detent from an end
of the index range (R153). -/
theorem decodeRot_moves {q : QdChan} (r : BitVec 2) (h1 : 1 ≤ q.seq.toNat) :
    ((decodeRot q r).1.pos = q.pos
        ∧ ((decodeRot q r).1.seq = q.seq ∨ (decodeRot q r).1.seq = q.seq + 1 ∨ (decodeRot q r).1.seq = q.seq - 1))
      ∨ ((decodeRot q r).1.seq = 4 ∧ ((q.seq = 7 ∧ (decodeRot q r).1.pos = q.pos + 1)
        ∨ (q.seq = 1 ∧ (decodeRot q r).1.pos = q.pos - 1))) := by
  unfold decodeRot
  split_ifs with hnext hup hprev hdown
  · exact .inr ⟨rfl, .inl ⟨by bv_omega, rfl⟩⟩
  · exact .inl ⟨rfl, .inr (.inl rfl)⟩
  · exact .inr ⟨rfl, .inr ⟨by bv_omega, rfl⟩⟩
  · exact .inl ⟨rfl, .inr (.inr rfl)⟩
  · exact .inl ⟨rfl, .inl rfl⟩

/-- Settles O45: QD_STEP and QD_ANGLE move their own channel by one decode step, and no other command writes a
context. -/
theorem countersMoveByOneDetent : Obligations.CountersMoveByOneDetent := by
  unfold Obligations.CountersMoveByOneDetent
  intro i s t k q q' h hq hq'
  by_cases hown : ∃ ch inp, (i = .qdStep ch inp ∨ i = .qdAngle ch inp) ∧ ch.toNat = k
  · obtain ⟨ch, inp, hi, rfl⟩ := hown
    obtain ⟨x, v, hx, rfl, -⟩ | ⟨e, -, rfl⟩ := exec_quad_cases hi h
    · obtain ⟨q₀, y, p, hq₀, h1, -, rfl, -⟩ := quadStep_ok hx
      obtain rfl : q₀ = q := Option.some.inj (hq₀.symm.trans hq)
      rw [State.qdAfter, List.getElem?_set_self (List.getElem?_eq_some_iff.1 hq).1] at hq'
      cases hq'
      exact decodeRot_moves (q := { q₀ with prev := p }) y h1
    · obtain rfl : q = q' := Option.some.inj (hq.symm.trans hq')
      exact .inl ⟨rfl, .inl rfl⟩
  · have hctx := exec_context_of_ne_quad h fun ch inp hi hk => hown ⟨ch, inp, hi, hk⟩
    rw [hq, hq'] at hctx
    obtain ⟨hseq, hpos, -⟩ : q'.seq = q.seq ∧ q'.pos = q.pos ∧ q'.prev = q.prev := by
      simpa [QdChan.context] using hctx
    exact .inl ⟨hpos, .inl hseq⟩

theorem decodeRot_of_rejects {q : QdChan} {r : BitVec 2} (h : q.rejects r) : decodeRot q r = (q, .none) := by
  rw [decodeRot, if_neg h.1, if_neg h.2]

/-- Neighbours in the sequence table differ from the index between them (R30). -/
theorem rejects_phase {q : QdChan} (h1 : 1 ≤ q.seq.toNat) (h7 : q.seq.toNat ≤ 7) : q.rejects (seqT q.seq.toNat) := by
  unfold QdChan.rejects
  generalize q.seq.toNat = n at *
  interval_cases n <;> decide

theorem rejects_of_phase {q : QdChan} {r : BitVec 2} (h : 1 ≤ q.seq.toNat ∧ q.seq.toNat ≤ 7)
    (hr : r = seqT q.seq.toNat) : q.rejects r :=
  hr ▸ rejects_phase h.1 h.2

/-- Settles O38, by the third branch of the decode step. -/
theorem noiseIsRejected : Obligations.NoiseIsRejected := by
  unfold Obligations.NoiseIsRejected
  intro q h1 h7
  refine ⟨fun r hr => ?_, rejects_phase h1 h7⟩
  rw [decodeStep, if_pos ⟨h1, h7⟩, decodeRot_of_rejects hr]

/-- After a decode step the reading it decoded is no neighbour of the phase: it is the new phase, or was noise. -/
theorem decodeRot_rejects {q : QdChan} {r : BitVec 2} (hseq : 1 ≤ q.seq.toNat ∧ q.seq.toNat ≤ 7) :
    (decodeRot q r).1.rejects r := by
  by_cases hrej : q.rejects r
  · rw [decodeRot_of_rejects hrej]
    exact hrej
  · refine rejects_of_phase (decodeRot_seq hseq) ?_
    unfold decodeRot
    split_ifs with hnext hup hprev hdown
    · rw [hnext, hup]
      rfl
    · rw [hnext]
      congr 1
      bv_omega
    · rw [hprev, hdown]
      rfl
    · rw [hprev]
      congr 1
      bv_omega
    · exact absurd ⟨hnext, hprev⟩ hrej

/-- In analog mode the reading that was decoded is the new `prev`, so `prev` is no neighbour of the phase. -/
theorem quadStep_analog_rejects {s : State} {ch : Chan} {inp : BitVec 16} {q : QdChan} {k : Bank} {x : QdChan × Rot}
    (h : qdReady s ch q) (ha : analogInput s q inp k) (hx : quadStep ch inp s = .ok x) : x.1.rejects x.1.prev := by
  have hseq := qdReady_seq h
  obtain ⟨i, hi⟩ | hn := firstMatch_or_noMatch s.params.tolCmp k inp.toNat
  · rw [quadStep_match h ha hi] at hx
    cases hx
    rw [(decodeRot_fields _ _).1]
    exact decodeRot_rejects hseq
  · rw [quadStep_noMatch h ha hn] at hx
    cases hx
    rw [(decodeRot_fields _ _).1]
    exact decodeRot_rejects hseq

/-- Writing the value a channel has changes the response alone. -/
theorem qdAfter_self {s : State} {ch : Chan} {q : QdChan} (v : Word) (h : s.qd[ch.toNat]? = some q) :
    s.qdAfter ch q v = s.answering v := by
  obtain ⟨hlt, rfl⟩ := List.getElem?_eq_some_iff.1 h
  rw [State.qdAfter, List.set_getElem_self]
  rfl

/-- Settles O40: without a match the reading is `prev`, which is noise, and each analog step leaves a `prev` that is. -/
theorem analogFallbackNeverCorrupts : Obligations.AnalogFallbackNeverCorrupts := by
  unfold Obligations.AnalogFallbackNeverCorrupts
  refine ⟨fun s ch inp q k h ha hn hrej => ?_, fun s t ch inp q q' k i hi h ha hexec hq' => ?_, fun p c => ?_⟩
  · rw [exec_qdStep_of_quadStep (quadStep_noMatch h ha hn), decodeRot_of_rejects hrej]
    exact congrArg _ (qdAfter_self _ h.2.1)
  · obtain ⟨x, v, hx, rfl, -⟩ | ⟨e, he, rfl⟩ := exec_quad_cases hi hexec
    · rw [qdAfter_qd_self h] at hq'
      cases hq'
      exact quadStep_analog_rejects h ha hx
    · obtain ⟨i', hm⟩ | hn := firstMatch_or_noMatch s.params.tolCmp k inp.toNat
      · rw [quadStep_match h ha hm] at he
        cases he
      · rw [quadStep_noMatch h ha hn] at he
        cases he
  · exact rejects_phase (q := QdChan.atReset p c) (by decide : 1 ≤ (4#4).toNat) (by decide : (4#4).toNat ≤ 7)

/-! ## Cycles of readings (R158) -/

/-- The QD_STEP whose reading is r on a digital channel with this INVERT. -/
def readingInstr (ch : Chan) (invert : Bool) (r : BitVec 2) : Instr :=
  .qdStep ch ((if invert then ~~~r else r).setWidth 16)

theorem digitalInput_reading {q : QdChan} (hm : q.ctrl.mode = .digital) (r : BitVec 2) :
    digitalInput q ((if q.ctrl.invert then ~~~r else r).setWidth 16) r := by
  have hreading : ∀ (b : Bool) (r : BitVec 2), ((if b then ~~~r else r).setWidth 16).toNat < 4
      ∧ r = if b then ~~~(((if b then ~~~r else r).setWidth 16).setWidth 2)
        else ((if b then ~~~r else r).setWidth 16).setWidth 2 := by decide
  exact ⟨hm, hreading q.ctrl.invert r⟩

/-- Decode steps one after another, with their events. -/
def decodeAll : QdChan → List (BitVec 2) → QdChan × List Rot
  | q, [] => (q, [])
  | q, r :: rs => ((decodeAll (decodeRot q r).1 rs).1, (decodeRot q r).2 :: (decodeAll (decodeRot q r).1 rs).2)

theorem execAll_cons {i : Instr} {is : List Instr} {s u v : State} {rs : List (Option Response)}
    (h : exec i s = .next u) (hrest : execAll is u = .next (v, rs)) :
    execAll (i :: is) s = .next (v, u.response :: rs) := by
  simp only [execAll, h, hrest]

theorem qdAfter_qdAfter (s : State) (ch : Chan) (q q' : QdChan) (v v' : Word) :
    (s.qdAfter ch q v).qdAfter ch q' v' = s.qdAfter ch q' v' := by
  simp only [State.qdAfter, List.set_set]

/-- Readings on a digital channel are decode steps of its context; the last one's answer is the state's response. -/
theorem execAll_readings {s : State} {ch : Chan} {q q' : QdChan} {es : List Rot} {last : Rot} (r : BitVec 2)
    (rs : List (BitVec 2)) (h : qdReady s ch q) (hm : q.ctrl.mode = .digital) (hrun : decodeAll q (r :: rs) = (q', es))
    (hlast : es.getLast? = some last) :
    execAll ((r :: rs).map (readingInstr ch q.ctrl.invert)) s
      = .next (s.qdAfter ch q' (respRot last), es.map (fun e => some ⟨respRot e, 0⟩)) := by
  have hexec := exec_qdStep_digital h (digitalInput_reading hm r)
  induction rs generalizing s q r es with
  | nil =>
    cases hrun
    cases hlast
    exact execAll_cons hexec rfl
  | cons r' rs ih =>
    cases hrun
    obtain ⟨-, hctrl, -⟩ := decodeRot_fields q r
    have hm' : (decodeRot q r).1.ctrl.mode = .digital := by rw [hctrl, hm]
    have hready : qdReady (s.qdAfter ch (decodeRot q r).1 (respRot (decodeRot q r).2)) ch (decodeRot q r).1 :=
      ⟨h.1, qdAfter_qd_self h, decodeRot_seq (qdReady_seq h)⟩
    have hrest := ih r' hready hm' rfl (by simpa [decodeAll] using hlast)
      (exec_qdStep_digital hready (digitalInput_reading hm' r'))
    rw [hctrl, qdAfter_qdAfter] at hrest
    exact execAll_cons hexec hrest

theorem decodeAll_append (q : QdChan) (rs rs' : List (BitVec 2)) :
    decodeAll q (rs ++ rs')
      = ((decodeAll (decodeAll q rs).1 rs').1, (decodeAll q rs).2 ++ (decodeAll (decodeAll q rs).1 rs').2) := by
  induction rs generalizing q with
  | nil => rfl
  | cons r rs ih => simp only [List.cons_append, decodeAll, ih]

theorem decodeAll_forward {q : QdChan} (hseq : q.seq = 4) :
    decodeAll q [2, 0, 1, 3] = ({ q with pos := q.pos + 1 }, [.none, .none, .none, .up]) := by
  simp [decodeAll, decodeRot, hseq, seqT, seqTable]

theorem decodeAll_backward {q : QdChan} (hseq : q.seq = 4) :
    decodeAll q [1, 0, 2, 3] = ({ q with pos := q.pos - 1 }, [.none, .none, .none, .down]) := by
  simp [decodeAll, decodeRot, hseq, seqT, seqTable]

theorem decodeAll_forward_twice {q : QdChan} (hseq : q.seq = 4) :
    decodeAll q [2, 0, 1, 3, 2, 0, 1, 3]
      = ({ q with pos := q.pos + 2 }, [.none, .none, .none, .up, .none, .none, .none, .up]) := by
  have happend := decodeAll_append q [2, 0, 1, 3] [2, 0, 1, 3]
  rw [decodeAll_forward hseq, decodeAll_forward (q := { q with pos := q.pos + 1 }) hseq, BitVec.add_assoc] at happend
  exact happend

/-- Settles O39: the index walks through the table and returns to 4 with one detent a cycle. -/
theorem oneDetentPerCycle : Obligations.OneDetentPerCycle := by
  unfold Obligations.OneDetentPerCycle
  intro s ch q h hseq hm
  exact ⟨execAll_readings 2 [0, 1, 3] h hm (decodeAll_forward hseq) rfl,
    execAll_readings 1 [0, 2, 3] h hm (decodeAll_backward hseq) rfl,
    execAll_readings 2 [0, 1, 3, 2, 0, 1, 3] h hm (decodeAll_forward_twice hseq) rfl⟩

end Sys2Proof.Machine
end

section
/-! SUPPORT. JOY_CLASSIFY, the errors of the classifier's commands (42_classifier.md R182, R183), and what NOP and the
reading commands leave (43_config_access.md R200, R201). -/

namespace Sys2Proof.Machine

/-! ## JOY_CLASSIFY -/

/-- A JOY_CLASSIFY that passes its checks answers the direction of the two scans and writes nothing. -/
theorem exec_joyClassify {s : State} {x y : BitVec 12} {kx ky : Bank} (hx : x.toNat < 2 ^ s.params.sampleW)
    (hy : y.toNat < 2 ^ s.params.sampleW) (hkx : s.bank[s.joyCtrl.bankX.toNat]? = some kx)
    (hky : s.bank[s.joyCtrl.bankY.toNat]? = some ky) :
    exec (.joyClassify x y) s = .next (s.answering (respDirection (joyDirection s.joyCtrl
      (classifyIn s.params.tolCmp kx x.toNat) (classifyIn s.params.tolCmp ky y.toNat)))) :=
  exec_of_ok (i := .joyClassify x y) (joyClassifyBody_ok_iff.2 ⟨hx, hy, kx, ky, hkx, hky, rfl, rfl⟩)

theorem joyDirection_of_none {j : JoyCtrl} {mx my : Option (BitVec 4)} (h : mx = none ∨ my = none) :
    joyDirection j mx my = none := by
  obtain rfl | rfl := h
  · cases my <;> rfl
  · cases mx <;> rfl

/-- An index of a bank is 4 bits wide, as the center fields are. -/
theorem ofNat_eq_center_iff (i : Fin 16) (center : BitVec 4) :
    BitVec.ofNat 4 i.val = center ↔ i.val = center.toNat := by
  rw [← BitVec.toNat_inj, BitVec.toNat_ofNat, Nat.mod_eq_of_lt i.isLt]

/-- RESP of a direction: the indices are 4-bit fields below the DIR bit (R183). -/
theorem respDirection_some : ∀ ix iy : Fin 16,
    respDirection (some (BitVec.ofNat 4 ix.val, BitVec.ofNat 4 iy.val))
      = BitVec.ofNat 32 (2 ^ 31 + 16 * iy.val + ix.val) := by
  decide

/-- Settles O48: the direction of the two scans, each a first match or none. -/
theorem joystickDirection : Obligations.JoystickDirection := by
  unfold Obligations.JoystickDirection
  intro s x y kx ky hx hy hkx hky
  rw [exec_joyClassify hx hy hkx hky]
  refine ⟨fun hnone => ?_, fun ix iy hix hiy => ?_⟩
  · rw [joyDirection_of_none (hnone.imp classifyIn_of_noMatch classifyIn_of_noMatch), respDirection]
  · rw [classifyIn_of_firstMatch hix, classifyIn_of_firstMatch hiy, joyDirection, ← ofNat_eq_center_iff ix,
      ← ofNat_eq_center_iff iy]
    exact ⟨fun hcenter => by rw [if_pos hcenter, respDirection],
      fun hoff => by rw [if_neg hoff, respDirection_some]⟩

/-! ## Errors -/

/-- Settles O49: CLASSIFY checks the bank and then the sample, JOY_CLASSIFY the two samples. -/
theorem classifierErrors : Obligations.ClassifierErrors := by
  unfold Obligations.ClassifierErrors
  refine ⟨fun s b sample => ⟨fun hb => exec_of_error (e := .badChannel) ?_,
    fun hb hsample => exec_of_error (e := .badOperand) ?_⟩, fun s x y hxy => exec_of_error (e := .badOperand) ?_⟩
  · exact bind_of_error (checkChannel_error_iff.2 ⟨hb, rfl⟩)
  · exact bind_of_ok_error (a := ()) (checkChannel_ok_iff.2 hb) (bind_of_error (checkSample_error_iff.2 ⟨hsample, rfl⟩))
  · obtain hx | hx := Nat.lt_or_ge x.toNat (2 ^ s.params.sampleW)
    · exact bind_of_ok_error (a := ()) (checkSample_ok_iff.2 hx)
        (bind_of_error (checkSample_error_iff.2 ⟨hxy.resolve_left (Nat.not_le.2 hx), rfl⟩))
    · exact bind_of_error (checkSample_error_iff.2 ⟨hx, rfl⟩)

/-! ## Commands that write nothing -/

/-- NOP, CFG_READ, CLASSIFY and JOY_CLASSIFY. -/
def WritesNothing (i : Instr) : Prop :=
  i = .nop ∨ (∃ a, i = .cfgRead a) ∨ (∃ b x, i = .classify b x) ∨ ∃ x y, i = .joyClassify x y

theorem body_of_writesNothing {i : Instr} {s u : State} {v : Word} (hi : WritesNothing i)
    (h : body i s = .ok (u, v)) : u = s := by
  obtain rfl | ⟨a, rfl⟩ | ⟨b, x, rfl⟩ | ⟨x, y, rfl⟩ := hi
  · cases h
    rfl
  · obtain ⟨w, -, hw⟩ := map_ok_iff.1 h
    cases hw
    rfl
  · obtain ⟨-, -, k, -, hu, -⟩ := classifyBody_ok_iff.1 h
    exact hu
  · obtain ⟨-, -, kx, ky, -, -, hu, -⟩ := joyClassifyBody_ok_iff.1 h
    exact hu

/-- Settles O50: each such command responds on the state it began in, or raises on it. -/
theorem nopAndReadingCommandsWriteNothing : Obligations.NopAndReadingCommandsWriteNothing := by
  unfold Obligations.NopAndReadingCommandsWriteNothing
  refine ⟨fun s => rfl, fun i s t hi h => ?_⟩
  obtain ⟨u, v, hbody, rfl⟩ | ⟨e, -, rfl⟩ := exec_next_iff.1 h
  · obtain rfl := body_of_writesNothing hi hbody
    exact ⟨rfl, fun _ => rfl⟩
  · exact ⟨rfl, fun hc => absurd hc (raise_not_completed e s)⟩

end Sys2Proof.Machine
end

section
/-! SUPPORT. The register map (20_memory.md R61 to R63, 43_config_access.md R201 to R207): the addresses of the
registers, and what CFG_READ and CFG_WRITE of an address do, by the register the address decodes to. -/

namespace Sys2Proof.Machine

/-! ## Addresses -/

section Addresses
variable {p : Params} {ch b : Chan} {k : Nat}

theorem toNat_dbAddr (hk : k < 4) : (dbAddr ch k).toNat = 0x100 + 4 * ch.toNat + k := by
  rw [dbAddr, BitVec.toNat_ofNat]
  omega

theorem toNat_qdAddr (hk : k < 8) : (qdAddr ch k).toNat = 0x200 + 8 * ch.toNat + k := by
  rw [qdAddr, BitVec.toNat_ofNat]
  omega

theorem toNat_bankAddr (hk : k < 32) : (bankAddr b k).toNat = 0x400 + 32 * b.toNat + k := by
  rw [bankAddr, BitVec.toNat_ofNat]
  omega

theorem ofNat_toNat_self {w : Nat} (x : BitVec w) : BitVec.ofNat w x.toNat = x := by
  rw [BitVec.ofNat_toNat, BitVec.setWidth_eq]

theorem decodeAddr_dbAddr (hp : countsOk p) (hch : ch.toNat < p.nDb) (hk : k < 4) :
    decodeAddr p (dbAddr ch k) = decodeDb ch k := by
  rw [dbAddr, decodeAddr_db hp.1 hch hk, ofNat_toNat_self]

theorem decodeAddr_qdAddr (hp : countsOk p) (hch : ch.toNat < p.nQd) (hk : k < 8) :
    decodeAddr p (qdAddr ch k) = decodeQd ch k := by
  rw [qdAddr, decodeAddr_qd hp.2.1 hch hk, ofNat_toNat_self]

theorem decodeAddr_bankAddr (hp : countsOk p) (hb : b.toNat < p.nBank) (hk : k < 32) :
    decodeAddr p (bankAddr b k) = decodeBank b k := by
  rw [bankAddr, decodeAddr_bank hp.2.2 hb hk, ofNat_toNat_self]

theorem decodeBank_ref (b : Chan) (i : Fin 16) :
    decodeBank b (16 + i.val) = some (.bankRef b (BitVec.ofNat 4 i.val)) := by
  rw [decodeBank, if_neg (by omega), if_neg (by omega), if_pos (by omega), Nat.add_sub_cancel_left]

/-- The number of a channel or bank that exists is a value of the CH field. -/
theorem exists_chan {n m : Nat} (h : n < m) (hm : m ≤ 16) : ∃ ch : Chan, n = ch.toNat :=
  ⟨BitVec.ofNat 4 n, by rw [BitVec.toNat_ofNat]; omega⟩

theorem mapped_dbAddr (h : ch.toNat < p.nDb) (hk : k < 3) : mapped p (dbAddr ch k).toNat :=
  .inr (.inr (.inr (.inl ⟨_, k, h, hk, toNat_dbAddr (by omega)⟩)))

theorem mapped_qdAddr (h : ch.toNat < p.nQd) (hk : k < 5) : mapped p (qdAddr ch k).toNat :=
  .inr (.inr (.inr (.inr (.inl ⟨_, k, h, hk, toNat_qdAddr (by omega)⟩))))

theorem mapped_bankAddr (h : b.toNat < p.nBank) (hk : k < 2 ∨ (16 ≤ k ∧ k < 32)) : mapped p (bankAddr b k).toNat :=
  .inr (.inr (.inr (.inr (.inr ⟨_, k, h, hk, toNat_bankAddr (by omega)⟩))))

/-- The address of a register that exists is a mapped one. -/
theorem mapped_addr {r : Reg} (h : r.inInstance p) : mapped p r.addr.toNat := by
  cases r
  case dbState | dbTracked | dbT0 => exact mapped_dbAddr h (by omega)
  case qdCtrl | qdDetents | qdSeq | qdPos | qdPrev => exact mapped_qdAddr h (by omega)
  case bankCount | bankTol | bankRef => exact mapped_bankAddr h (by omega)
  case err => exact .inr (.inl rfl)
  case joyCtrl => exact .inr (.inr (.inl rfl))
  all_goals exact .inl (by decide)

theorem decodeLow_exists {a : Nat} (h : a ≤ 4 ∨ a = 8 ∨ a = 9) : a < 0x00A ∧ ∃ r, decodeLow a = some r := by
  obtain h | rfl | rfl := h
  · interval_cases a <;> exact ⟨by decide, _, rfl⟩
  · exact ⟨by decide, _, rfl⟩
  · exact ⟨by decide, _, rfl⟩

theorem decodeDb_exists (h : k < 3) : ∃ r, decodeDb ch k = some r := by
  interval_cases k <;> exact ⟨_, rfl⟩

theorem decodeQd_exists (h : k < 5) : ∃ r, decodeQd ch k = some r := by
  interval_cases k <;> exact ⟨_, rfl⟩

theorem decodeBank_exists (h : k < 2 ∨ 16 ≤ k) : ∃ r, decodeBank b k = some r := by
  unfold decodeBank
  split_ifs
  · exact ⟨_, rfl⟩
  · exact ⟨_, rfl⟩
  · exact ⟨_, rfl⟩
  · omega

/-- A mapped address decodes to a register. -/
theorem decodeAddr_of_mapped {a : Addr} (hp : countsOk p) (h : mapped p a.toNat) : ∃ r, decodeAddr p a = some r := by
  rw [mapped, ← or_assoc, ← or_assoc, or_assoc (a := a.toNat ≤ 4)] at h
  obtain hlow | ⟨ch, k, hch, hk, ha⟩ | ⟨ch, k, hch, hk, ha⟩ | ⟨b, k, hb, hk, ha⟩ := h
  · obtain ⟨hlt, hr⟩ := decodeLow_exists hlow
    rwa [decodeAddr, if_pos hlt]
  · rw [← ofNat_toNat_self a, ha, decodeAddr_db hp.1 hch (by omega)]
    exact decodeDb_exists hk
  · rw [← ofNat_toNat_self a, ha, decodeAddr_qd hp.2.1 hch (by omega)]
    exact decodeQd_exists hk
  · rw [← ofNat_toNat_self a, ha, decodeAddr_bank hp.2.2 hb (by omega)]
    exact decodeBank_exists (by omega)

end Addresses

/-- Settles O4: an address decodes to a register at that address, and to some register exactly where it is mapped. -/
theorem registerMapIsOneToOne : Obligations.RegisterMapIsOneToOne := by
  unfold Obligations.RegisterMapIsOneToOne
  refine fun p hp => ⟨fun a r h => ?_, fun a => ⟨fun ⟨r, h⟩ => ?_, decodeAddr_of_mapped hp⟩⟩
  · obtain ⟨rfl, -⟩ := decodeAddr_some h
    exact ⟨rfl, h⟩
  · obtain ⟨rfl, hin⟩ := decodeAddr_some h
    exact mapped_addr hin

/-! ## The two commands, by the register -/

section Commands
variable {s t : State} {a : Addr} {r : Reg} {v : Word}

theorem exec_cfgRead_of_read (hr : decodeAddr s.params a = some r) (h : r.read s = .ok v) :
    exec (.cfgRead a) s = .next (s.answering v) :=
  exec_of_ok (i := .cfgRead a) (map_ok_iff.2 ⟨v, regRead_ok_iff.2 ⟨r, hr, h⟩, rfl⟩)

theorem exec_cfgWrite_of_write (hr : decodeAddr s.params a = some r) (hro : r.readOnly = false)
    (hv : r.valid s.params v = true) (h : r.write s v = .ok t) :
    exec (.cfgWrite a v) s = .next (t.answering 0) :=
  exec_of_ok (i := .cfgWrite a v) (map_ok_iff.2 ⟨t, regWrite_ok_iff.2 ⟨r, hr, hro, hv, h⟩, rfl⟩)

theorem exec_cfgWrite_of_readOnly (hr : decodeAddr s.params a = some r) (hro : r.readOnly = true) :
    exec (.cfgWrite a v) s = .next (s.afterError 6) :=
  exec_of_error (e := .readOnly) (map_error_iff.2 (by simp only [regWrite, hr, hro, if_true]))

theorem exec_cfgWrite_of_invalid (hr : decodeAddr s.params a = some r) (hro : r.readOnly = false)
    (hv : r.valid s.params v = false) : exec (.cfgWrite a v) s = .next (s.afterError 7) :=
  exec_of_error (e := .badValue) (map_error_iff.2 (by simp [regWrite, hr, hro, hv]))

theorem exec_cfgRead_of_unmapped (hr : decodeAddr s.params a = none) :
    exec (.cfgRead a) s = .next (s.afterError 5) :=
  exec_of_error (e := .badAddress) (map_error_iff.2 (by simp only [regRead, hr]))

theorem exec_cfgWrite_of_unmapped (hr : decodeAddr s.params a = none) :
    exec (.cfgWrite a v) s = .next (s.afterError 5) :=
  exec_of_error (e := .badAddress) (map_error_iff.2 (by simp only [regWrite, hr]))

end Commands

/-- Settles O53: an address that is not mapped decodes to nothing. -/
theorem unmappedAddressesRaise : Obligations.UnmappedAddressesRaise := by
  unfold Obligations.UnmappedAddressesRaise
  intro s a v hp hnot
  have hnone : decodeAddr s.params a = none := by
    rw [Option.eq_none_iff_forall_ne_some]
    exact fun r hr => hnot ((registerMapIsOneToOne s.params hp).2 a |>.1 ⟨r, hr⟩)
  exact ⟨exec_cfgRead_of_unmapped hnone, exec_cfgWrite_of_unmapped hnone⟩

/-- Settles O54: the registers at these addresses are read-only. -/
theorem readOnlyRegistersRefuseWrites : Obligations.ReadOnlyRegistersRefuseWrites := by
  unfold Obligations.ReadOnlyRegistersRefuseWrites
  refine fun s v hp => ⟨exec_cfgWrite_of_readOnly (r := .err) rfl rfl, fun ch k hch hk => ?_, fun ch k hch hlo hk => ?_⟩
  · obtain ⟨r, hr⟩ := decodeDb_exists (ch := BitVec.ofNat 4 ch) hk
    refine exec_cfgWrite_of_readOnly ((decodeAddr_db hp.1 hch (by omega)).trans hr) ?_
    obtain ⟨-, rfl⟩ | ⟨-, rfl⟩ | ⟨-, rfl⟩ := decodeDb_some hr <;> rfl
  · obtain ⟨r, hr⟩ := decodeQd_exists (ch := BitVec.ofNat 4 ch) hk
    refine exec_cfgWrite_of_readOnly ((decodeAddr_qd hp.2.1 hch (by omega)).trans hr) ?_
    obtain ⟨h, -⟩ | ⟨h, -⟩ | ⟨-, rfl⟩ | ⟨-, rfl⟩ | ⟨-, rfl⟩ := decodeQd_some hr
    · omega
    · omega
    · rfl
    · rfl
    · rfl

end Sys2Proof.Machine
end

section
/-! SUPPORT. The values of the registers (10_state.md R31 to R45, 43_config_access.md R204, R206): a packed register and
its number, and the checks and fields of a data word as arithmetic. -/

namespace Sys2Proof.Machine

/-! ## Registers as numbers -/

/-- A field above bit k of a word whose other bits are below k adds to its number. -/
theorem toNat_placed_or {w k : Nat} (hi : BitVec w) (lo : Word) (hk : k + w ≤ 32) (hlo : lo.toNat < 2 ^ k) :
    (hi.setWidth 32 <<< k ||| lo : Word).toNat = 2 ^ k * hi.toNat + lo.toNat := by
  have hlt : 2 ^ k * hi.toNat < 2 ^ 32 :=
    calc 2 ^ k * hi.toNat < 2 ^ k * 2 ^ w := Nat.mul_lt_mul_of_pos_left hi.isLt (Nat.two_pow_pos k)
      _ = 2 ^ (k + w) := (Nat.pow_add ..).symm
      _ ≤ 2 ^ 32 := Nat.pow_le_pow_right (by decide) hk
  have hle : hi.toNat ≤ 2 ^ k * hi.toNat := Nat.le_mul_of_pos_left _ (Nat.two_pow_pos k)
  rw [BitVec.toNat_or, BitVec.toNat_shiftLeft, BitVec.toNat_setWidth, Nat.mod_eq_of_lt (hle.trans_lt hlt),
    Nat.shiftLeft_eq, Nat.mul_comm, Nat.mod_eq_of_lt hlt, Nat.two_pow_add_eq_or_of_lt hlo]

theorem joyCtrl_toWord_eq (j : JoyCtrl) :
    j.toWord = BitVec.ofNat 32 (j.bankX.toNat + 2 ^ 4 * j.bankY.toNat + 2 ^ 8 * j.centerX.toNat
      + 2 ^ 12 * j.centerY.toNat) := by
  have hx : (j.bankX.setWidth 32).toNat = j.bankX.toNat := by simp; omega
  have hy := toNat_placed_or j.bankY (j.bankX.setWidth 32) (k := 4) (by decide) (by omega)
  have hcx := toNat_placed_or j.centerX _ (k := 8) (by decide) (hy.trans_lt (by omega))
  have hcy := toNat_placed_or j.centerY _ (k := 12) (by decide) (hcx.trans_lt (by omega))
  rw [JoyCtrl.toWord, BitVec.or_assoc, BitVec.or_assoc]
  apply BitVec.eq_of_toNat_eq
  rw [hcy, hcx, hy, hx, BitVec.toNat_ofNat]
  omega

theorem qdCtrl_toWord_eq (c : QdCtrl) :
    c.toWord = BitVec.ofNat 32 ((if c.mode = .analog then 1 else 0) + (if c.invert then 2 else 0)
      + 2 ^ 4 * c.bank.toNat) := by
  obtain ⟨mode, invert, bank⟩ := c
  revert bank
  cases mode <;> cases invert <;> decide

/-! ## Data words as numbers -/

section Words
variable {p : Params} (v : Word)

theorem extract_eq_ofNat (lo len : Nat) : v.extractLsb' lo len = BitVec.ofNat len (v.toNat / 2 ^ lo) := by
  rw [← Nat.shiftRight_eq_div_pow]
  rfl

theorem extract_eq_zero_iff (lo len : Nat) : v.extractLsb' lo len = 0 ↔ v.toNat / 2 ^ lo % 2 ^ len = 0 := by
  rw [extract_eq_ofNat, ← BitVec.toNat_inj, BitVec.toNat_ofNat]
  rfl

theorem joyCtrl_ofWord_eq :
    JoyCtrl.ofWord v = ⟨BitVec.ofNat 4 v.toNat, BitVec.ofNat 4 (v.toNat / 2 ^ 4), BitVec.ofNat 4 (v.toNat / 2 ^ 8),
      BitVec.ofNat 4 (v.toNat / 2 ^ 12)⟩ := by
  simp only [JoyCtrl.ofWord, extract_eq_ofNat, Nat.pow_zero, Nat.div_one]

theorem qdCtrl_ofWord_eq :
    QdCtrl.ofWord v = ⟨if v.toNat % 2 = 1 then .analog else .digital, decide (v.toNat / 2 % 2 = 1),
      BitVec.ofNat 4 (v.toNat / 2 ^ 4)⟩ := by
  simp [QdCtrl.ofWord, extract_eq_ofNat, BitVec.getLsbD, Nat.testBit_eq_decide_div_mod_eq]

theorem validJoyCtrl_iff :
    validJoyCtrl p v = true ↔
      v.toNat < 2 ^ 16 ∧ v.toNat % 16 < p.nBank ∧ v.toNat / 2 ^ 4 % 16 < p.nBank := by
  have := v.isLt
  simp only [validJoyCtrl, Bool.and_eq_true, beq_iff_eq, decide_eq_true_eq, extract_eq_zero_iff,
    BitVec.extractLsb'_toNat, Nat.shiftRight_eq_div_pow, Nat.pow_zero, Nat.div_one]
  omega

theorem validQdCtrl_iff :
    validQdCtrl p v = true ↔ v.toNat < 2 ^ 8 ∧ v.toNat / 4 % 4 = 0 ∧ v.toNat / 2 ^ 4 < p.nBank := by
  have := v.isLt
  simp only [validQdCtrl, Bool.and_eq_true, beq_iff_eq, decide_eq_true_eq, extract_eq_zero_iff,
    BitVec.extractLsb'_toNat, Nat.shiftRight_eq_div_pow]
  omega

theorem validQdDetents_iff : validQdDetents v = true ↔ 1 ≤ v.toNat ∧ v.toNat < 2 ^ 16 := by
  have := v.isLt
  simp only [validQdDetents, Bool.and_eq_true, beq_iff_eq, decide_eq_true_eq, extract_eq_zero_iff,
    BitVec.extractLsb'_toNat, Nat.shiftRight_eq_div_pow, Nat.pow_zero, Nat.div_one]
  omega

theorem validBankCount_iff : validBankCount v = true ↔ v.toNat ≤ 16 := decide_eq_true_iff

theorem validLevel_iff : validLevel p v = true ↔ v.toNat < 2 ^ p.sampleW := decide_eq_true_iff

theorem countOfWord_eq {n : Fin 17} (h : v.toNat = n.val) : countOfWord v = n := by
  rw [countOfWord, h]
  exact Fin.ofNat_val_eq_self n

end Words

end Sys2Proof.Machine
end

section
/-! SUPPORT. CFG_READ and CFG_WRITE of each register (10_state.md R31 to R45, 43_config_access.md R201 to R207): the
value a read answers, the state a write leaves, and that a write is read back and touches one address alone. -/

namespace Sys2Proof.Machine

/-! ## Reading -/

section Reads
variable {s : State} {ch : Chan} {c : DbCtx} {q : QdChan}

theorem read_dbState (h : s.db[ch.toNat]? = some c) : (Reg.dbState ch).read s = .ok (c.state.code.setWidth 32) :=
  map_ok_iff.2 ⟨c, getDb_ok_iff.2 h, rfl⟩

theorem read_dbTracked (h : s.db[ch.toNat]? = some c) : (Reg.dbTracked ch).read s = .ok (c.tracked.setWidth 32) :=
  map_ok_iff.2 ⟨c, getDb_ok_iff.2 h, rfl⟩

theorem read_dbT0 (h : s.db[ch.toNat]? = some c) : (Reg.dbT0 ch).read s = .ok c.t0 :=
  map_ok_iff.2 ⟨c, getDb_ok_iff.2 h, rfl⟩

theorem read_qdSeq (h : s.qd[ch.toNat]? = some q) : (Reg.qdSeq ch).read s = .ok (q.seq.setWidth 32) :=
  map_ok_iff.2 ⟨q, getQd_ok_iff.2 h, rfl⟩

theorem read_qdPos (h : s.qd[ch.toNat]? = some q) : (Reg.qdPos ch).read s = .ok q.pos :=
  map_ok_iff.2 ⟨q, getQd_ok_iff.2 h, rfl⟩

theorem read_qdPrev (h : s.qd[ch.toNat]? = some q) : (Reg.qdPrev ch).read s = .ok (q.prev.setWidth 32) :=
  map_ok_iff.2 ⟨q, getQd_ok_iff.2 h, rfl⟩

/-- A CFG_READ answers the value of the register at the address, whose number is v. -/
theorem answersRead_of_read {a v : Nat} {r : Reg} {w : Word}
    (hr : decodeAddr s.params (BitVec.ofNat 12 a) = some r) (h : r.read s = .ok w) (hw : w = BitVec.ofNat 32 v) :
    answersRead a s v :=
  exec_cfgRead_of_read hr (hw ▸ h)

/-- A word is the word of its number. -/
theorem word_eq_ofNat (w : Word) : w = BitVec.ofNat 32 w.toNat := (ofNat_toNat_self w).symm

/-- A field widened to a word is the word of its number. -/
theorem setWidth_eq_ofNat {n : Nat} (x : BitVec n) : x.setWidth 32 = BitVec.ofNat 32 x.toNat :=
  (BitVec.ofNat_toNat 32 x).symm

end Reads

/-- Settles O51: the addresses decode to the global registers, which read as their numbers. -/
theorem cfgReadGlobals : Obligations.CfgReadGlobals := by
  unfold Obligations.CfgReadGlobals
  intro s
  exact ⟨answersRead_of_read (r := .holdTime) rfl rfl (word_eq_ofNat _),
    answersRead_of_read (r := .debounceTime) rfl rfl (word_eq_ofNat _),
    answersRead_of_read (r := .repeatTime) rfl rfl (word_eq_ofNat _),
    answersRead_of_read (r := .dashThreshold) rfl rfl (word_eq_ofNat _),
    answersRead_of_read (r := .dashTime) rfl rfl (word_eq_ofNat _),
    answersRead_of_read (r := .err) rfl rfl (word_eq_ofNat _),
    answersRead_of_read (r := .joyCtrl) rfl rfl (joyCtrl_toWord_eq _)⟩

/-- Settles O52, register by register of a channel or bank that exists. -/
theorem cfgReadChannelsAndBanks : Obligations.CfgReadChannelsAndBanks := by
  unfold Obligations.CfgReadChannelsAndBanks
  refine ⟨fun s ch c hp hch hc => ?_, fun s ch q hp hch hq => ?_, fun s b k hp hb hk => ?_⟩
  · obtain ⟨ch, rfl⟩ := exists_chan hch hp.1
    have haddr := fun k (h : k < 4) => decodeAddr_dbAddr hp hch h
    have hstate : ∀ n, c.state.code.setWidth 32 = BitVec.ofNat 32 n → answersRead (0x100 + 4 * ch.toNat) s n :=
      fun n => answersRead_of_read (haddr 0 (by decide)) (read_dbState hc)
    exact ⟨fun h => hstate 0 (by rw [h]; rfl), fun h => hstate 1 (by rw [h]; rfl), fun h => hstate 2 (by rw [h]; rfl),
      fun h => hstate 3 (by rw [h]; rfl), fun h => hstate 4 (by rw [h]; rfl), fun h => hstate 5 (by rw [h]; rfl),
      answersRead_of_read (haddr 1 (by decide)) (read_dbTracked hc) (setWidth_eq_ofNat _),
      answersRead_of_read (haddr 2 (by decide)) (read_dbT0 hc) (word_eq_ofNat _)⟩
  · obtain ⟨ch, rfl⟩ := exists_chan hch hp.2.1
    have haddr := fun k (h : k < 8) => decodeAddr_qdAddr hp hch h
    exact ⟨answersRead_of_read (haddr 0 (by decide)) (read_qdCtrl hq) (qdCtrl_toWord_eq _),
      answersRead_of_read (haddr 1 (by decide)) (read_qdDetents hq) (setWidth_eq_ofNat _),
      answersRead_of_read (haddr 2 (by decide)) (read_qdSeq hq) (setWidth_eq_ofNat _),
      answersRead_of_read (haddr 3 (by decide)) (read_qdPos hq) (word_eq_ofNat _),
      answersRead_of_read (haddr 4 (by decide)) (read_qdPrev hq) (setWidth_eq_ofNat _)⟩
  · obtain ⟨b, rfl⟩ := exists_chan hb hp.2.2
    have haddr := fun k (h : k < 32) => decodeAddr_bankAddr hp hb h
    refine ⟨answersRead_of_read (haddr 0 (by decide)) (read_bankCount hk) rfl,
      answersRead_of_read (haddr 1 (by decide)) (read_bankTol hk) (setWidth_eq_ofNat _), fun i => ?_⟩
    have hi : (BitVec.ofNat 4 i.val).toNat = i.val := Nat.mod_eq_of_lt i.isLt
    rw [Nat.add_assoc]
    refine answersRead_of_read ((haddr _ (by omega)).trans (decodeBank_ref b i)) (read_bankRef hk _) ?_
    simp only [hi, setWidth_eq_ofNat]

/-! ## Writing -/

/-- Settles O55: the durations take any word, and JOY_CTRL the words that pass its check. -/
theorem cfgWriteGlobals : Obligations.CfgWriteGlobals := by
  unfold Obligations.CfgWriteGlobals
  intro s v
  refine ⟨exec_cfgWrite_of_write (r := .holdTime) rfl rfl rfl rfl,
    exec_cfgWrite_of_write (r := .debounceTime) rfl rfl rfl rfl,
    exec_cfgWrite_of_write (r := .repeatTime) rfl rfl rfl rfl,
    exec_cfgWrite_of_write (r := .dashThreshold) rfl rfl rfl rfl,
    exec_cfgWrite_of_write (r := .dashTime) rfl rfl rfl rfl, fun hv => ?_, fun hv => ?_⟩
  · refine exec_cfgWrite_of_write (r := .joyCtrl) rfl rfl ((validJoyCtrl_iff v).2 hv) ?_
    rw [Reg.write, joyCtrl_ofWord_eq]
  · exact exec_cfgWrite_of_invalid (r := .joyCtrl) rfl rfl (Bool.eq_false_iff.2 (mt (validJoyCtrl_iff v).1 hv))

/-- Settles O56: the two registers take the words that pass their checks. -/
theorem cfgWriteChannels : Obligations.CfgWriteChannels := by
  unfold Obligations.CfgWriteChannels
  intro s ch q v hp hch hq
  obtain ⟨ch, rfl⟩ := exists_chan hch hp.2.1
  have haddr := fun k (h : k < 8) => decodeAddr_qdAddr hp hch h
  have hget : s.getQd ch = .ok q := getQd_ok_iff.2 hq
  refine ⟨fun hv => ?_, fun hv => ?_, fun hv => ?_, fun hv => ?_⟩
  · refine exec_cfgWrite_of_write (haddr 0 (by decide)) rfl ((validQdCtrl_iff v).2 hv) ?_
    rw [Reg.write, hget, qdCtrl_ofWord_eq]
    rfl
  · exact exec_cfgWrite_of_invalid (haddr 0 (by decide)) rfl (Bool.eq_false_iff.2 (mt (validQdCtrl_iff v).1 hv))
  · refine exec_cfgWrite_of_write (haddr 1 (by decide)) rfl ((validQdDetents_iff v).2 hv) ?_
    rw [Reg.write, hget]
    rfl
  · exact exec_cfgWrite_of_invalid (haddr 1 (by decide)) rfl (Bool.eq_false_iff.2 (mt (validQdDetents_iff v).1 hv))

/-- Settles O57: the registers of a bank take the words that pass their checks. -/
theorem cfgWriteBanks : Obligations.CfgWriteBanks := by
  unfold Obligations.CfgWriteBanks
  intro s b k v hp hsample hb hk
  obtain ⟨b, rfl⟩ := exists_chan hb hp.2.2
  have haddr := fun k (h : k < 32) => decodeAddr_bankAddr hp hb h
  have hget : s.getBank b = .ok k := getBank_ok_iff.2 hk
  have hlevel : 2 ^ s.params.sampleW ≤ v.toNat → validLevel s.params v = false := fun hv =>
    Bool.eq_false_iff.2 (mt (validLevel_iff v).1 (Nat.not_lt.2 hv))
  refine ⟨fun n hn => ?_, fun hv => ?_, fun hv => ?_, fun hv => ?_, fun i hv => ?_, fun i hv => ?_⟩
  · refine exec_cfgWrite_of_write (haddr 0 (by decide)) rfl ((validBankCount_iff v).2 (by omega)) ?_
    rw [Reg.write, hget, countOfWord_eq v hn]
    rfl
  · exact exec_cfgWrite_of_invalid (haddr 0 (by decide)) rfl
      (Bool.eq_false_iff.2 (mt (validBankCount_iff v).1 (Nat.not_le.2 hv)))
  · refine exec_cfgWrite_of_write (haddr 1 (by decide)) rfl ((validLevel_iff v).2 hv) ?_
    rw [Reg.write, hget]
    rfl
  · exact exec_cfgWrite_of_invalid (haddr 1 (by decide)) rfl (hlevel hv)
  · rw [Nat.add_assoc]
    refine exec_cfgWrite_of_write ((haddr _ (by omega)).trans (decodeBank_ref b i)) rfl ((validLevel_iff v).2 hv) ?_
    have hi : (BitVec.ofNat 4 i.val).toNat = i.val := Nat.mod_eq_of_lt i.isLt
    simp only [Reg.write, hget, hi]
    rfl
  · rw [Nat.add_assoc]
    exact exec_cfgWrite_of_invalid ((haddr _ (by omega)).trans (decodeBank_ref b i)) rfl (hlevel hv)

/-! ## Reading back -/

section WriteThenRead
variable {s t : State} {v : Word} {r : Reg}

theorem setQd_get {ch : Chan} {q q' : QdChan} (h : s.qd[ch.toNat]? = some q) :
    (s.setQd ch q').qd[ch.toNat]? = some q' :=
  List.getElem?_set_self (List.getElem?_eq_some_iff.1 h).1

theorem setBank_get {b : Chan} {k k' : Bank} (h : s.bank[b.toNat]? = some k) :
    (s.setBank b k').bank[b.toNat]? = some k' :=
  List.getElem?_set_self (List.getElem?_eq_some_iff.1 h).1

/-- A register that took a valid word reads as that word. -/
theorem read_write_self (hsample : s.params.sampleW ≤ 12) (hv : r.valid s.params v = true)
    (hw : r.write s v = .ok t) : r.read t = .ok v := by
  cases r
  case holdTime | debounceTime | repeatTime | dashThreshold | dashTime =>
    cases hw
    rfl
  case joyCtrl =>
    cases hw
    exact congrArg Except.ok (joyCtrl_readBack hv)
  case qdCtrl ch =>
    obtain ⟨q, hq, rfl⟩ := map_ok_iff.1 hw
    rw [read_qdCtrl (setQd_get (getQd_ok_iff.1 hq)), qdCtrl_readBack hv]
  case qdDetents ch =>
    obtain ⟨q, hq, rfl⟩ := map_ok_iff.1 hw
    rw [read_qdDetents (setQd_get (getQd_ok_iff.1 hq)), detents_readBack hv]
  case bankCount b =>
    obtain ⟨k, hk, rfl⟩ := map_ok_iff.1 hw
    rw [read_bankCount (setBank_get (getBank_ok_iff.1 hk)), count_readBack hv]
  case bankTol b =>
    obtain ⟨k, hk, rfl⟩ := map_ok_iff.1 hw
    rw [read_bankTol (setBank_get (getBank_ok_iff.1 hk)), level_readBack hsample hv]
  case bankRef b i =>
    obtain ⟨k, hk, rfl⟩ := map_ok_iff.1 hw
    rw [read_bankRef (setBank_get (getBank_ok_iff.1 hk)), Vector.getElem_set_self, level_readBack hsample hv]
  all_goals cases hw

/-- A register write changes no parameter. -/
theorem write_params (hw : r.write s v = .ok t) : t.params = s.params := by
  obtain ⟨x, rfl⟩ | ⟨-, rfl⟩ | ⟨ch, q, -, ⟨-, rfl⟩ | ⟨-, rfl⟩⟩ | ⟨b, k, -, ⟨-, rfl⟩ | ⟨-, rfl⟩ | ⟨i, -, rfl⟩⟩ :=
    regWrite_cases hw
  all_goals rfl

/-- A CFG_WRITE that completes is the write of the register at the address. -/
theorem cfgWrite_completed {a : Addr} (h : exec (.cfgWrite a v) s = .next t) (hc : t.completed) :
    ∃ r u, decodeAddr s.params a = some r ∧ r.valid s.params v = true ∧ r.write s v = .ok u ∧ t = u.answering 0 := by
  obtain ⟨u, w, hbody, rfl⟩ | ⟨e, -, rfl⟩ := exec_next_iff.1 h
  · obtain ⟨u', hu, hw⟩ := map_ok_iff.1 hbody
    cases hw
    obtain ⟨r, hr, -, hv, hw⟩ := regWrite_ok_iff.1 hu
    exact ⟨r, u, hr, hv, hw, rfl⟩
  · exact absurd hc (raise_not_completed e s)

/-- No register shows the response. -/
theorem read_answering (w : Word) : r.read (s.answering w) = r.read s := by cases r <;> rfl

end WriteThenRead

/-- Settles O58: the register at the address took the whole word. -/
theorem readBackGivesTheWrittenValue : Obligations.ReadBackGivesTheWrittenValue := by
  unfold Obligations.ReadBackGivesTheWrittenValue
  intro s t a v hsample h hc
  obtain ⟨r, u, hr, hv, hw, rfl⟩ := cfgWrite_completed h hc
  exact exec_cfgRead_of_read ((congrArg (decodeAddr · a) (write_params hw)).trans hr)
    ((read_answering 0).trans (read_write_self hsample hv hw))

/-! ## Every other address -/

section Other
variable {α : Type} {s t : State} {v : Word} {r r' : Reg}

/-- What a channel's write does not change of any channel. -/
theorem getQd_setQd_map {ch ch' : Chan} {q q' : QdChan} {f : QdChan → α} (hq : s.getQd ch = .ok q)
    (hf : ch' = ch → f q' = f q) : ((s.setQd ch q').getQd ch').map f = (s.getQd ch').map f := by
  by_cases hch : ch' = ch
  · subst hch
    rw [getQd_ok_iff.2 (setQd_get (getQd_ok_iff.1 hq)), hq]
    exact congrArg Except.ok (hf rfl)
  · have hne : ch.toNat ≠ ch'.toNat := fun h => hch (BitVec.eq_of_toNat_eq h.symm)
    simp only [State.getQd, setQd_qd, List.getElem?_set_ne hne]

/-- What a bank's write does not change of any bank. -/
theorem getBank_setBank_map {b b' : Chan} {k k' : Bank} {f : Bank → α} (hk : s.getBank b = .ok k)
    (hf : b' = b → f k' = f k) : ((s.setBank b k').getBank b').map f = (s.getBank b').map f := by
  by_cases hb : b' = b
  · subst hb
    rw [getBank_ok_iff.2 (setBank_get (getBank_ok_iff.1 hk)), hk]
    exact congrArg Except.ok (hf rfl)
  · have hne : b.toNat ≠ b'.toNat := fun h => hb (BitVec.eq_of_toNat_eq h.symm)
    simp only [State.getBank, setBank_bank, List.getElem?_set_ne hne]

/-- A write of one register leaves the value of every other (R207). -/
theorem read_write_other (hne : r' ≠ r) (hw : r.write s v = .ok t) : r'.read t = r'.read s := by
  cases r
  case holdTime | debounceTime | repeatTime | dashThreshold | dashTime | joyCtrl =>
    cases hw
    cases r' <;> simp_all [Reg.read, State.getDb, State.getQd, State.getBank]
  case qdCtrl ch =>
    obtain ⟨q, hq, rfl⟩ := map_ok_iff.1 hw
    cases r'
    case qdCtrl ch' => exact getQd_setQd_map hq fun h => absurd (congrArg Reg.qdCtrl h) hne
    case qdDetents | qdSeq | qdPos | qdPrev => exact getQd_setQd_map hq fun _ => rfl
    all_goals rfl
  case qdDetents ch =>
    obtain ⟨q, hq, rfl⟩ := map_ok_iff.1 hw
    cases r'
    case qdDetents ch' => exact getQd_setQd_map hq fun h => absurd (congrArg Reg.qdDetents h) hne
    case qdCtrl | qdSeq | qdPos | qdPrev => exact getQd_setQd_map hq fun _ => rfl
    all_goals rfl
  case bankCount b =>
    obtain ⟨k, hk, rfl⟩ := map_ok_iff.1 hw
    cases r'
    case bankCount b' => exact getBank_setBank_map hk fun h => absurd (congrArg Reg.bankCount h) hne
    case bankTol | bankRef => exact getBank_setBank_map hk fun _ => rfl
    all_goals rfl
  case bankTol b =>
    obtain ⟨k, hk, rfl⟩ := map_ok_iff.1 hw
    cases r'
    case bankTol b' => exact getBank_setBank_map hk fun h => absurd (congrArg Reg.bankTol h) hne
    case bankCount | bankRef => exact getBank_setBank_map hk fun _ => rfl
    all_goals rfl
  case bankRef b i =>
    obtain ⟨k, hk, rfl⟩ := map_ok_iff.1 hw
    cases r'
    case bankRef b' i' =>
      refine getBank_setBank_map hk fun h => ?_
      have hi : i.toNat ≠ i'.toNat := fun hi => hne (by rw [h, BitVec.eq_of_toNat_eq hi])
      simp only [Vector.getElem_set_ne _ _ hi]
    case bankCount | bankTol => exact getBank_setBank_map hk fun _ => rfl
    all_goals rfl
  all_goals cases hw

end Other

/-- Settles O59: another address is unmapped still, or another register's. -/
theorem writeChangesOnlyItsRegister : Obligations.WriteChangesOnlyItsRegister := by
  unfold Obligations.WriteChangesOnlyItsRegister
  intro s t a b v h hc hne
  obtain ⟨r, u, hr, -, hw, rfl⟩ := cfgWrite_completed h hc
  have herr : u.err = s.err := write_err hw
  have hparams : u.params = s.params := write_params hw
  refine ⟨?_, herr, hparams⟩
  have hdecode : decodeAddr (u.answering 0).params b = decodeAddr s.params b := congrArg (decodeAddr · b) hparams
  unfold regRead
  rw [hdecode]
  cases hb : decodeAddr s.params b with
  | none => rfl
  | some r' =>
    have hother : r' ≠ r := fun heq => hne ((decodeAddr_some hb).1.symm.trans (heq ▸ (decodeAddr_some hr).1))
    exact (read_answering 0).trans (read_write_other hother hw)

end Sys2Proof.Machine
end
